-- ==== Sys2Proof/Config.lean ====
section
/-! DEFINITION. What an instance of the block fixes (spec 00_scope.md R7) and the values the spec leaves free. -/

namespace Sys2Proof

/-- A consistent outcome of one event with edges on both lines (R76). -/
inductive BothEdgeOutcome where
  | order01
  | order10
  | keep0
  | keep1
deriving DecidableEq, Repr, Inhabited

/-- `BOTH_EDGE_POLICY` (R7, R76): one fixed outcome, or `any`, which admits all four. -/
inductive BothEdgePolicy where
  | order01
  | order10
  | keep0
  | keep1
  | any
deriving DecidableEq, Repr

/-- The parameters of an instance (R7). They are configuration, not state (R30): no transition writes them. Durations are
in microseconds (log 18). -/
structure Params where
  /-- `N`, the capacity of the bit buffer in bits. -/
  n : Nat
  /-- `T_TICKS`, the frame-completion threshold in ticks. -/
  tTicks : Nat
  /-- `TICK_PERIOD`, the duration of one tick; no rule of the block reads it (R133). -/
  tickPeriod : Rat
  /-- `BOTH_EDGE_POLICY`. -/
  bothEdge : BothEdgePolicy
  /-- `POLL_INTERVAL`, the host's sleep between polls; no rule of the block reads it (R9). -/
  pollInterval : Rat
deriving DecidableEq, Repr

/-- The legal parameters (R7, R119): `1 ≤ N ≤ 255`, `T_TICKS ≥ 1`, `TICK_PERIOD > 0`. -/
def Params.legal (p : Params) : Bool :=
  decide (1 ≤ p.n) && decide (p.n ≤ 255) && decide (1 ≤ p.tTicks) && decide (0 < p.tickPeriod)

/-- The defaults of R7: 32 bits, 3000 ticks of 1 µs (3 ms), policy `ANY`, a poll interval of 5 ms. -/
def Params.default : Params :=
  { n := 32, tTicks := 3000, tickPeriod := 1, bothEdge := .any, pollInterval := 5000 }

/-- The frame-completion threshold as a duration, `T_TICKS · TICK_PERIOD` (R133). -/
def Params.threshold (p : Params) : Rat := p.tTicks * p.tickPeriod

/-- Free value (R106, log 6): which of the transitions of one instant comes next, reduced modulo their number. -/
opaque Config.freeOrder : Nat → Nat

/-- Free value (R76, log 5): the outcome of an `EDGE01` under policy `ANY`. -/
opaque Config.freeBothEdge : Nat → BothEdgeOutcome

/-- Free value (R34, R117, log 4): a tick count that power-on reset leaves unspecified. -/
opaque Config.freeTime : Nat → Nat

/-- Free value (R34, R117, log 4): the bit that power-on reset leaves in a buffer cell, by use and cell index. -/
opaque Config.freeBit : Nat → Nat → Bool

end Sys2Proof
end

