-- ==== Sys2Proof/Word.lean ====
section
/-! DEFINITION. The words the block's ports carry (spec 30_encoding.md R52). -/

namespace Sys2Proof

/-- One word of the event port `EV`, 3 bits (R53). -/
abbrev EventWord := BitVec 3

/-- One word of the command port `CMD`, 16 bits (R55). -/
abbrev CommandWord := BitVec 16

/-- The operand field `ARG` of a command word and the bit counts of a response, 8 bits (R9, R55, R62). -/
abbrev BitCount := BitVec 8

/-- Bits in frame index order, the element at position i being the bit at frame index i (R14). A bus of frame bits
(`FIN_BITS`, `RSP_BITS`) is such a list, since bus bit i is frame index i (R58, R65). A bit is `false` for 0, `true` for 1. -/
abbrev FrameBits := List Bool

end Sys2Proof
end

