-- ==== Sys2Proof/Syntax.lean ====
section
/-! DEFINITION. The instructions (one constructor per row of spec/opcode_table.json), the transitions, and one sample of
the input ports. -/

namespace Sys2Proof

/-- The block's instructions: the five commands and the four events. -/
inductive Instr where
  /-- `NOP` (R83). -/
  | nop
  /-- `PEND` (R81). -/
  | pend
  /-- `READ m` (R89); `m` is `ARG`, the operand `maxBits`. -/
  | read (m : BitCount)
  /-- `RESET` (R78). -/
  | reset
  /-- `DECODE d` (R99); `d` is `ARG`, `fin` the operand bus `FIN_BITS` (R58). -/
  | decode (d : BitCount) (fin : FrameBits)
  /-- `EDGE0` (R74). -/
  | edge0
  /-- `EDGE1` (R75). -/
  | edge1
  /-- `EDGE01` (R76). -/
  | edge01
  /-- `TICK` (R82). -/
  | tick
deriving DecidableEq, Repr

/-- Why a command word is illegal (R60). -/
inductive Illegal where
  /-- `RSV ≠ 0`. -/
  | reservedBits
  /-- `OP ≥ 0x5`. -/
  | reservedOp
  /-- `OP` is NOP, PEND or RESET and `ARG ≠ 0`. -/
  | operandNotZero
  /-- `OP` is DECODE and `ARG > N`. -/
  | lengthOverCapacity
deriving DecidableEq, Repr

/-- One command transaction (R67): the command word, and the wires of `FIN_BITS` beside it. -/
structure CommandTxn where
  word : CommandWord
  fin : FrameBits
deriving DecidableEq, Repr

/-- What the block performs as one atomic transition (R6, R33): an instruction, an illegal command word (R61), or
power-on reset (R34). -/
inductive Transition where
  | instr (i : Instr)
  | illegal (why : Illegal)
  | powerOn
deriving DecidableEq, Repr

/-- One sample of all input ports (R52): `RST`, `EV`, and a command transaction if one is presented. -/
structure Instant where
  rst : Bool
  event : EventWord
  command : Option CommandTxn
deriving DecidableEq, Repr

end Sys2Proof
end

