-- ==== Sys2Proof/WellFormed.lean ====
section
/-! DEFINITION. Which terms of the syntax stand for something the ports can carry, for a capacity `n`. -/

namespace Sys2Proof

/-- DECODE's count is at most `N` and its bus has `N` wires (R57, R58); every other instruction is well formed. -/
def Instr.wellFormed (n : Nat) : Instr → Bool
  | .nop => true
  | .pend => true
  | .read _ => true
  | .reset => true
  | .decode d fin => decide (d.toNat ≤ n) && decide (fin.length = n)
  | .edge0 => true
  | .edge1 => true
  | .edge01 => true
  | .tick => true

/-- A transition is well formed when its instruction is. -/
def Transition.wellFormed (n : Nat) : Transition → Bool
  | .instr i => i.wellFormed n
  | .illegal _ => true
  | .powerOn => true

/-- A sample of the ports is well formed when the operand bus has `N` wires (R52). -/
def Instant.wellFormed (n : Nat) (x : Instant) : Bool :=
  match x.command with
  | none => true
  | some t => decide (t.fin.length = n)

end Sys2Proof
end

