-- ==== Sys2Proof/Decode.lean ====
section
/-! DEFINITION. Decoding event words and command words (spec 30_encoding.md R53 to R61), and the encoder back. -/

namespace Sys2Proof

/-- `OP = CMD[15:12]` (R55). -/
def opField (w : CommandWord) : BitVec 4 := w.extractLsb' 12 4

/-- `RSV = CMD[11:8]` (R55). -/
def rsvField (w : CommandWord) : BitVec 4 := w.extractLsb' 8 4

/-- `ARG = CMD[7:0]` (R55). -/
def argField (w : CommandWord) : BitCount := w.extractLsb' 0 8

/-- A command word from its fields (R55). -/
def commandWord (op rsv : BitVec 4) (arg : BitCount) : CommandWord := op ++ (rsv ++ arg)

/-- The `N` wires of the bus `FIN_BITS` (R52, R58); a wire that the sample does not give reads 0 (log 15). -/
def finBus (n : Nat) (fin : FrameBits) : FrameBits := (List.range n).map fun i => fin.getD i false

/-- An operation without operand: legal only when `ARG` is 0 (R55, R59). -/
def withoutOperand (arg : BitCount) (i : Instr) : Transition :=
  if arg = 0 then .instr i else .illegal .operandNotZero

/-- `decode_cmd` (R59), total on all 2^16 command words; an illegal word is named by the check it fails first. -/
def decodeCommand (n : Nat) (t : CommandTxn) : Transition :=
  if rsvField t.word ≠ 0 then .illegal .reservedBits
  else
    match (opField t.word).toNat with
    | 0 => withoutOperand (argField t.word) .nop
    | 1 => withoutOperand (argField t.word) .pend
    | 2 => .instr (.read (argField t.word))
    | 3 => withoutOperand (argField t.word) .reset
    | 4 =>
      if (argField t.word).toNat ≤ n then .instr (.decode (argField t.word) (finBus n t.fin))
      else .illegal .lengthOverCapacity
    | _ => .illegal .reservedOp

/-- The edge part `{E1, E0} = EV[1:0]` of an event word (R53). -/
def decodeEdge (e : EventWord) : List Instr :=
  match e.getLsbD 1, e.getLsbD 0 with
  | false, false => []
  | false, true => [.edge0]
  | true, false => [.edge1]
  | true, true => [.edge01]

/-- The transitions one event word causes (R53, R54): its edge part is one transition, `TK = EV[2]` another. The list
is the set of them; the order of performing them is not fixed (R54). -/
def decodeEvent (e : EventWord) : List Instr :=
  decodeEdge e ++ (if e.getLsbD 2 then [.tick] else [])

/-- The transitions one sample of the ports causes. While `RST` is asserted no event and no command is taken (R117). -/
def decodeInstant (n : Nat) (x : Instant) : List Transition :=
  if x.rst then [.powerOn]
  else (decodeEvent x.event).map .instr ++ (x.command.map (decodeCommand n)).toList

/-- A sample of the ports with only an event word. -/
def eventInstant (e : EventWord) : Instant := { rst := false, event := e, command := none }

/-- A sample of the ports with only a command transaction. -/
def commandInstant (w : CommandWord) (fin : FrameBits) : Instant :=
  { rst := false, event := 0, command := some { word := w, fin := fin } }

/-- The encoder (R53, R57, R69): the port words of an instruction. The operand bus of a command other than DECODE
carries zeros (it is not read, R58). -/
def encode (n : Nat) : Instr → Instant
  | .nop => commandInstant (commandWord 0x0 0 0) (List.replicate n false)
  | .pend => commandInstant (commandWord 0x1 0 0) (List.replicate n false)
  | .read m => commandInstant (commandWord 0x2 0 m) (List.replicate n false)
  | .reset => commandInstant (commandWord 0x3 0 0) (List.replicate n false)
  | .decode d fin => commandInstant (commandWord 0x4 0 d) fin
  | .edge0 => eventInstant 0b001
  | .edge1 => eventInstant 0b010
  | .edge01 => eventInstant 0b011
  | .tick => eventInstant 0b100

/-- The match and mask columns of the opcode map (R57) for a command; none for an event. -/
def commandRow : Instr → Option (CommandWord × CommandWord)
  | .nop => some (0x0000, 0xFFFF)
  | .pend => some (0x1000, 0xFFFF)
  | .read _ => some (0x2000, 0xFF00)
  | .reset => some (0x3000, 0xFFFF)
  | .decode _ _ => some (0x4000, 0xFF00)
  | .edge0 => none
  | .edge1 => none
  | .edge01 => none
  | .tick => none

/-- The match and mask of the event patterns of R74 to R76 and R82 (`x01`, `x10`, `x11`, `1xx`); none for a command. -/
def eventRow : Instr → Option (EventWord × EventWord)
  | .nop => none
  | .pend => none
  | .read _ => none
  | .reset => none
  | .decode _ _ => none
  | .edge0 => some (0b001, 0b011)
  | .edge1 => some (0b010, 0b011)
  | .edge01 => some (0b011, 0b011)
  | .tick => some (0b100, 0b100)

/-- The sample that presents a word of `nbits` bits: at most 8 bits is an event word, more is a command word (R66), with
zeros on the operand bus (log 16). -/
def tableInstant (n nbits w : Nat) : Instant :=
  if nbits ≤ 8 then eventInstant (BitVec.ofNat 3 w)
  else commandInstant (BitVec.ofNat 16 w) (List.replicate n false)

/-- The instruction the decoder reads from a word of the opcode table, for the default capacity. An event word that
causes two transitions answers its edge transition (log 16). -/
def decodeTableWord (nbits w : Nat) : Option Instr :=
  if 2 ^ (if nbits ≤ 8 then 3 else 16) ≤ w then none
  else
    match decodeInstant Params.default.n (tableInstant Params.default.n nbits w) with
    | .instr i :: _ => some i
    | _ => none

end Sys2Proof
end

