-- ==== Sys2Proof/Machine/State.lean ====
section
/-! DEFINITION. The state of the machine (spec 10_state.md), its response record (spec 30_encoding.md R62) and reset. -/

namespace Sys2Proof.Machine

/-- `RSP_STATUS` (R62, R64). The codes `10` and `11` are never produced, so they have no name. -/
inductive Status where
  | ok
  | illegal
deriving DecidableEq, Repr

/-- The response record of one command transaction (R62). -/
structure Response where
  /-- `RSP_STATUS`. -/
  status : Status
  /-- `RSP_COUNT`, 8 bits. -/
  count : BitCount
  /-- `RSP_BITS`, N wires, wire i being frame index i (R65). -/
  bits : FrameBits
  /-- `RSP_RAW`, an unsigned integer carried in N bits (R9, R95; log 17). -/
  raw : Nat
  /-- `RSP_FAC`, 8 bits. -/
  fac : BitVec 8
  /-- `RSP_CARD`, 16 bits. -/
  card : BitVec 16
  /-- `RSP_LEN26`, 1 bit. -/
  len26 : Bool
deriving DecidableEq, Repr

/-- The block raises no exception and no transition faults (R102): there is no fault. -/
inductive Fault where
deriving DecidableEq, Repr

/-- Why a step is refused. -/
inductive Refusal where
  /-- An instruction without a meaning, raised by `exec` for an arm not written yet. No arm raises it now. Safe. -/
  | notModelled (mnemonic : String)
  /-- Raised by `step` when the parameters are outside their legal range, which the spec refuses
  (93_implementation_defined.md Part 1; R7, R119). Safe. -/
  | illegalParameters
deriving DecidableEq, Repr

/-- The machine. The spec's state is exactly `len`, `buf`, `last`, `now` (R20). -/
structure State where
  /-- The parameters (R7, R30): no transition writes them (log 1). -/
  params : Params
  /-- `LEN`, the number of bits in the buffer, 8 bits (R21; log 11). -/
  len : Nat
  /-- `BUF[0..N-1]`, one bit a cell, cell i at position i (R22). -/
  buf : FrameBits
  /-- `LAST`, the tick count of the most recent edge event (R24). -/
  last : Nat
  /-- `NOW`, the unbounded count of ticks (R25). -/
  now : Nat
  /-- `RSP`, the response of the transition just performed, none when that was no command (R32, R62; log 8). -/
  rsp : Option Response
  /-- What the agents will present on the input ports, the next sample first (R17, R52; log 7). -/
  inputs : List Instant
  /-- The model's own: transitions of the current instant that are still to be performed (R54, R106; log 6). -/
  due : List Transition
  /-- The model's own: how many free values have been taken (log 19). -/
  freeIx : Nat
deriving DecidableEq, Repr

/-- The machine right after power-on reset (R34, R117), nothing presented on its ports. `len` is the spec's; `buf`,
`last` and `now` are unspecified there and are DESIGN CHOICES here (log 3); the parameters are R7's defaults (log 2). -/
def State.reset : State where
  params := Params.default
  len := 0
  buf := List.replicate Params.default.n false
  last := 0
  now := 0
  rsp := none
  inputs := []
  due := []
  freeIx := 0

end Sys2Proof.Machine
end

