-- ==== Sys2Proof/Machine/Ops.lean ====
section
/-! DEFINITION. The named operations on the state that every transition is made of: field writes, the buffer, responses,
clearing, power-on reset, and taking the next transition from the ports. The block has no exception to take (R102, R109):
the one transition that answers an error, an illegal command word, is `State.illegalCommand`. -/

namespace Sys2Proof.Machine

/-- `LEN <- v`. -/
def State.setLen (v : Nat) (s : State) : State := { s with len := v }

/-- The whole buffer written. -/
def State.setBuf (v : FrameBits) (s : State) : State := { s with buf := v }

/-- `LAST <- v`. -/
def State.setLast (v : Nat) (s : State) : State := { s with last := v }

/-- `NOW <- v`. -/
def State.setNow (v : Nat) (s : State) : State := { s with now := v }

/-- The response port driven with `v`, or with no response. -/
def State.setRsp (v : Option Response) (s : State) : State := { s with rsp := v }

/-- The samples still to come. -/
def State.setInputs (v : List Instant) (s : State) : State := { s with inputs := v }

/-- The transitions of the current instant still to be performed. -/
def State.setDue (v : List Transition) (s : State) : State := { s with due := v }

/-- The free-value counter. -/
def State.setFreeIx (v : Nat) (s : State) : State := { s with freeIx := v }

/-- `BufRead(i)` (R15). Every cell below N holds a bit; no rule reads another one (R22), and there it answers 0. -/
def State.bufRead (i : Nat) (s : State) : Bool := s.buf.getD i false

/-- `BufWrite(i, b)` (R15). -/
def State.bufWrite (i : Nat) (b : Bool) (s : State) : State := s.setBuf (s.buf.set i b)

/-- `append(b)` (R73): the bit is stored while `LEN < N` and dropped otherwise; `LAST` is stamped in both cases. -/
def State.appendBit (b : Bool) (s : State) : State :=
  (if s.len < s.params.n then (s.bufWrite s.len b).setLen (s.len + 1) else s).setLast s.now

/-- A response with the given status and every other field 0 (R63). -/
def Response.zero (n : Nat) (st : Status) : Response where
  status := st
  count := 0
  bits := List.replicate n false
  raw := 0
  fac := 0
  card := 0
  len26 := false

/-- The two status codes on `RSP_STATUS` (R62, R64). -/
def Status.code : Status → BitVec 2
  | .ok => 0b00
  | .illegal => 0b01

/-- `respond(...)` (R15): the command's response. -/
def State.respond (r : Response) (s : State) : State := s.setRsp (some r)

/-- A transition that is no command produces no response (R32). -/
def State.noResponse (s : State) : State := s.setRsp none

/-- The response `{OK}` with every other field 0 (R63). -/
def State.respondOk (s : State) : State := s.respond (Response.zero s.params.n .ok)

/-- `LEN <- 0`; `BUF`, `LAST` and `NOW` are kept (R78). -/
def State.clearLen (s : State) : State := s.setLen 0

/-- An illegal command word (R61): no state changes, the response is `ILLEGAL` with every other field 0. -/
def State.illegalCommand (s : State) : State := s.respond (Response.zero s.params.n .illegal)

/-- The buffer with every one of its N cells at a free value (R34). -/
def freeBuffer (n k : Nat) : FrameBits := (List.range n).map (Config.freeBit k)

/-- Power-on reset (R34, R117): `LEN <- 0`; `BUF`, `LAST` and `NOW` become unspecified, which is a free value each. -/
def State.powerOnReset (s : State) : State :=
  (((((s.setLen 0).setBuf (freeBuffer s.params.n s.freeIx)).setLast (Config.freeTime s.freeIx)).setNow
    (Config.freeTime (s.freeIx + 1))).setFreeIx (s.freeIx + 2)).noResponse

/-- Which of `k` transitions that arrived in one instant is performed next: the spec fixes no order (R106). -/
def State.orderChoice (k : Nat) (s : State) : Nat := Config.freeOrder s.freeIx % k

/-- One of the transitions of the current instant is taken and the others stay due (R106). -/
def State.takeDue : List Transition → State → State × Option Transition
  | [], s => (s.setDue [], none)
  | [t], s => (s.setDue [], some t)
  | t :: u :: ts, s =>
    ((s.setDue ((t :: u :: ts).eraseIdx (s.orderChoice (ts.length + 2)))).setFreeIx (s.freeIx + 1),
      (t :: u :: ts)[s.orderChoice (ts.length + 2)]?)

/-- The next transition: one still due from the current instant, or one of the next sample of the ports. With nothing
presented there is none, and the block waits (R44; log 9). -/
def State.nextTransition (s : State) : State × Option Transition :=
  match s.due with
  | [] =>
    match s.inputs with
    | [] => (s, none)
    | x :: rest => State.takeDue (decodeInstant s.params.n x) (s.setInputs rest)
  | t :: ts => State.takeDue (t :: ts) s

end Sys2Proof.Machine
end

