-- ==== Sys2Proof/Machine/Operands.lean ====
section
/-! DEFINITION. The operands: the bit a line carries (R11), `maxBits` of READ, the frame of DECODE and its fields. -/

namespace Sys2Proof.Machine

/-- The two input lines (R18). -/
inductive Line where
  | data0
  | data1
deriving DecidableEq, Repr

/-- The bit value an edge on a line carries (R11): DATA0 is 0, DATA1 is 1. PRESUMED by the spec itself (log 10). -/
def Line.bit : Line → Bool
  | .data0 => false
  | .data1 => true

/-- `maxBits = zext(ARG)` (R56). -/
def maxBits (m : BitCount) : Nat := m.toNat

/-- `d = zext(ARG)` (R56). -/
def deliveredCount (d : BitCount) : Nat := d.toNat

/-- The frame bits operand of DECODE, `b_i = FIN_BITS[i]` for `0 ≤ i < d` (R56, R58). -/
def frameOperand (d : Nat) (fin : FrameBits) : FrameBits := (List.range d).map fun i => fin.getD i false

/-- The three fields of a frame (R94). -/
structure Fields where
  raw : Nat
  fac : Nat
  card : Nat
deriving DecidableEq, Repr

/-- `x << 1 | b` on unbounded integers (R16). -/
def shiftIn (x : Nat) (b : Bool) : Nat := 2 * x + b.toNat

/-- The body of the loop of `extract` at frame index i (R94). -/
def extractStep (i : Nat) (b : Bool) (f : Fields) : Fields where
  raw := shiftIn f.raw b
  fac := if 1 ≤ i ∧ i ≤ 8 then shiftIn f.fac b else f.fac
  card := if 9 ≤ i ∧ i ≤ 24 then shiftIn f.card b else f.card

/-- The loop of `extract` from frame index i on (R94). -/
def extractFrom (i : Nat) : FrameBits → Fields → Fields
  | [], f => f
  | b :: bs, f => extractFrom (i + 1) bs (extractStep i b f)

/-- `extract(d, b)` (R94), `d` being the number of bits given. -/
def extract (bits : FrameBits) : Fields := extractFrom 0 bits { raw := 0, fac := 0, card := 0 }

/-- `len26` (R98). -/
def len26 (d : Nat) : Bool := decide (d = 26)

end Sys2Proof.Machine
end

