-- ==== Sys2Proof/Machine/Accumulator.lean ====
section
/-! DEFINITION. The bit accumulator: EDGE0, EDGE1, EDGE01 and RESET (spec 40_accumulator.md). -/

namespace Sys2Proof.Machine

/-- EDGE0 (R74): `append(0)`. -/
def execEdge0 (s : State) : Host.Outcome State Fault Refusal :=
  .next (s.appendBit Line.data0.bit).noResponse

/-- EDGE1 (R75): `append(1)`. -/
def execEdge1 (s : State) : Host.Outcome State Fault Refusal :=
  .next (s.appendBit Line.data1.bit).noResponse

/-- One outcome of edges on both lines (R76); the second append starts from the state the first leaves. -/
def State.appendBoth (o : BothEdgeOutcome) (s : State) : State :=
  match o with
  | .order01 => (s.appendBit Line.data0.bit).appendBit Line.data1.bit
  | .order10 => (s.appendBit Line.data1.bit).appendBit Line.data0.bit
  | .keep0 => s.appendBit Line.data0.bit
  | .keep1 => s.appendBit Line.data1.bit

/-- The outcome `BOTH_EDGE_POLICY` selects (R76): under `ANY` a free value, and the counter advances. -/
def State.appendByPolicy (s : State) : State :=
  match s.params.bothEdge with
  | .order01 => s.appendBoth .order01
  | .order10 => s.appendBoth .order10
  | .keep0 => s.appendBoth .keep0
  | .keep1 => s.appendBoth .keep1
  | .any => (s.appendBoth (Config.freeBothEdge s.freeIx)).setFreeIx (s.freeIx + 1)

/-- EDGE01 (R76). -/
def execEdge01 (s : State) : Host.Outcome State Fault Refusal :=
  .next s.appendByPolicy.noResponse

/-- RESET (R78). -/
def execReset (s : State) : Host.Outcome State Fault Refusal :=
  .next s.clearLen.respondOk

end Sys2Proof.Machine
end

