-- ==== Sys2Proof/Machine/Flags.lean ====
section
/-! DEFINITION. What the block computes from its state: elapsed time, the pending count, READY and the phase
(spec 41_detector.md). The block has no flag register (R31). -/

namespace Sys2Proof.Machine

/-- `elapsed(S) = NOW - LAST` (R28), defined when `LEN > 0`, where `LAST ≤ NOW` (R27; log 11). -/
def State.elapsed (s : State) : Nat := s.now - s.last

/-- `pending(S)` (R79). -/
def State.pending (s : State) : Nat :=
  if s.len = 0 then 0 else if s.params.tTicks ≤ s.elapsed then s.len else 0

/-- The `READY` output (R84): 1 exactly when `pending(S) > 0`. -/
def State.ready (s : State) : Bool := decide (0 < s.pending)

/-- The three phases of the source's state machine (R85). -/
inductive Phase where
  | idle
  | accumulating
  | ready
deriving DecidableEq, Repr

/-- The phase, a function of the state (R85). -/
def State.phase (s : State) : Phase :=
  if s.len = 0 then .idle else if s.elapsed < s.params.tTicks then .accumulating else .ready

end Sys2Proof.Machine
end

