-- ==== Sys2Proof/Machine/Detector.lean ====
section
/-! DEFINITION. The frame detector and time base: PEND, TICK and NOP (spec 41_detector.md). -/

namespace Sys2Proof.Machine

/-- The response of PEND (R63, R81). -/
def pendResponse (s : State) : Response :=
  { Response.zero s.params.n .ok with count := BitVec.ofNat 8 s.pending }

/-- PEND (R81). -/
def execPend (s : State) : Host.Outcome State Fault Refusal :=
  .next (s.respond (pendResponse s))

/-- TICK (R82): `NOW <- NOW + 1`. -/
def execTick (s : State) : Host.Outcome State Fault Refusal :=
  .next (s.setNow (s.now + 1)).noResponse

/-- NOP (R83). -/
def execNop (s : State) : Host.Outcome State Fault Refusal :=
  .next s.respondOk

end Sys2Proof.Machine
end

