-- ==== Sys2Proof/Machine/Extractor.lean ====
section
/-! DEFINITION. The field extractor: DECODE (spec 43_extractor.md). -/

namespace Sys2Proof.Machine

/-- The response of DECODE (R63, R99). -/
def decodeResponse (n d : Nat) (fin : FrameBits) : Response :=
  { Response.zero n .ok with
    raw := (extract (frameOperand d fin)).raw
    fac := BitVec.ofNat 8 (extract (frameOperand d fin)).fac
    card := BitVec.ofNat 16 (extract (frameOperand d fin)).card
    len26 := len26 d }

/-- DECODE d (R99). A count `d > N` is no DECODE but an illegal command word, which the decoder turns away; given such
a term directly, the answer is that of R61 (log 14). -/
def execDecode (d : BitCount) (fin : FrameBits) (s : State) : Host.Outcome State Fault Refusal :=
  if deliveredCount d ≤ s.params.n then .next (s.respond (decodeResponse s.params.n (deliveredCount d) fin))
  else .next s.illegalCommand

end Sys2Proof.Machine
end

