-- ==== Sys2Proof/Machine/Reader.lean ====
section
/-! DEFINITION. The frame reader: READ (spec 42_reader.md). -/

namespace Sys2Proof.Machine

/-- `RSP_BITS` when `d` bits are delivered: wire i is `BUF[i]` for `i < d`, and 0 for `d ≤ i < N` (R65, R89). -/
def deliveredBits (d : Nat) (s : State) : FrameBits :=
  (List.range s.params.n).map fun i => if i < d then s.bufRead i else false

/-- The response of a READ that drains a frame (R63, R88, R89): the true length, and `min(L, maxBits)` bits. -/
def frameResponse (max : Nat) (s : State) : Response :=
  { Response.zero s.params.n .ok with
    count := BitVec.ofNat 8 s.len
    bits := deliveredBits (min s.len max) s }

/-- READ m (R89): drain a complete frame, or return nothing. -/
def execRead (m : BitCount) (s : State) : Host.Outcome State Fault Refusal :=
  if s.pending = 0 then .next s.respondOk
  else .next (s.clearLen.respond (frameResponse (maxBits m) s))

/-- The frame a READ m produced (R93): its true length and its `min(L, maxBits)` delivered bits. -/
def Response.frame (m : BitCount) (r : Response) : Nat × FrameBits :=
  (r.count.toNat, r.bits.take (min r.count.toNat (maxBits m)))

end Sys2Proof.Machine
end

