-- ==== Sys2Proof/Machine/Dispatch.lean ====
section
/-! DEFINITION. The meaning of each instruction, one arm a constructor. -/

namespace Sys2Proof.Machine

def exec (i : Instr) (s : State) : Host.Outcome State Fault Refusal :=
  match i with
  | .nop => Sys2Proof.Machine.execNop s
  | .pend => Sys2Proof.Machine.execPend s
  | .read m => Sys2Proof.Machine.execRead m s
  | .reset => Sys2Proof.Machine.execReset s
  | .decode d fin => Sys2Proof.Machine.execDecode d fin s
  | .edge0 => Sys2Proof.Machine.execEdge0 s
  | .edge1 => Sys2Proof.Machine.execEdge1 s
  | .edge01 => Sys2Proof.Machine.execEdge01 s
  | .tick => Sys2Proof.Machine.execTick s

end Sys2Proof.Machine
end

