-- ==== Sys2Proof/Machine/Step.lean ====
section
/-! DEFINITION. One step: one atomic transition (spec 00_scope.md R6), taken from the input ports. -/

namespace Sys2Proof.Machine

/-- A transition performed: an instruction by its meaning, an illegal word by R61, power-on reset by R34. -/
def perform (t : Transition) (s : State) : Host.Outcome State Fault Refusal :=
  match t with
  | .instr i => exec i s
  | .illegal _ => .next s.illegalCommand
  | .powerOn => .next s.powerOnReset

/-- What one step does with the transition that was taken; with none the block waits and drives no response. -/
def performNext (x : State × Option Transition) : Host.Outcome State Fault Refusal :=
  match x.2 with
  | none => .next x.1.noResponse
  | some t => perform t x.1

/-- One step of the block; parameters outside their legal range are refused (R7, R119). -/
def step (s : State) : Host.Outcome State Fault Refusal :=
  if s.params.legal then performNext s.nextTransition else .refused .illegalParameters

/-- The state with a word of the opcode table presented on the ports as the very next sample (log 7, log 16). -/
def State.withFetchWord (s : State) (nbits w : Nat) : State :=
  (s.setDue []).setInputs (tableInstant s.params.n nbits w :: s.inputs)

end Sys2Proof.Machine
end

