-- ==== Sys2Proof/Machine/Assembler.lean ====
section
/-! DEFINITION. The spec's assembler (spec 30_encoding.md R69 to R71): statements, what each presents on the ports, and
the text of a statement line. A program is a script of what the agents do, not a stored program (R71). -/

namespace Sys2Proof.Machine

/-- A statement or pseudo-statement (R69, R70). `tick k` covers `tick` (k = 1). -/
inductive Stmt where
  | edge0
  | edge1
  | edge01
  | tick (k : Nat)
  | quiet
  | send (bits : FrameBits) (gap : Nat)
  | nop
  | pend
  | read (m : Nat)
  | reset
  | decode (d : Nat) (bits : FrameBits)
deriving DecidableEq, Repr

/-- The edge event that carries a bit (R11, R70). -/
def edgeWord (b : Bool) : EventWord := if b then 0b010 else 0b001

/-- k copies of `tick` (R70). -/
def tickInstants (k : Nat) : List Instant := List.replicate k (eventInstant 0b100)

/-- The expansion of `send` (R70): one edge a bit, `gap` ticks between two consecutive ones, nothing after the last. -/
def sendInstants (gap : Nat) : FrameBits → List Instant
  | [] => []
  | [b] => [eventInstant (edgeWord b)]
  | b :: c :: bs => eventInstant (edgeWord b) :: (tickInstants gap ++ sendInstants gap (c :: bs))

/-- A command statement without operand on the bus. -/
def commandStmt (n : Nat) (op : BitVec 4) (arg : BitCount) : List Instant :=
  [commandInstant (commandWord op 0 arg) (List.replicate n false)]

/-- What a statement presents on the ports, or none where an assembler rejects it (R69: `m > 255`, `d > N`, a string
whose length is not d). -/
def assemble (p : Params) : Stmt → Option (List Instant)
  | .edge0 => some [eventInstant 0b001]
  | .edge1 => some [eventInstant 0b010]
  | .edge01 => some [eventInstant 0b011]
  | .tick k => some (tickInstants k)
  | .quiet => some (tickInstants p.tTicks)
  | .send bits gap => some (sendInstants gap bits)
  | .nop => some (commandStmt p.n 0x0 0)
  | .pend => some (commandStmt p.n 0x1 0)
  | .read m => if m ≤ 255 then some (commandStmt p.n 0x2 (BitVec.ofNat 8 m)) else none
  | .reset => some (commandStmt p.n 0x3 0)
  | .decode d bits =>
    if d ≤ p.n ∧ bits.length = d then
      some [commandInstant (commandWord 0x4 0 (BitVec.ofNat 8 d)) (bits ++ List.replicate (p.n - d) false)]
    else none

/-- A program: its statements in the order written (R69); rejected when one of them is. -/
def assembleProgram (p : Params) : List Stmt → Option (List Instant)
  | [] => some []
  | st :: sts =>
    match assemble p st, assembleProgram p sts with
    | some xs, some ys => some (xs ++ ys)
    | _, _ => none

/-- A program loaded: its samples follow whatever the agents already present (R71; log 7). -/
def State.load (xs : List Instant) (s : State) : State := s.setInputs (s.inputs ++ xs)

/-! ### Text (R69; log 21) -/

/-- The text of a line before its comment. -/
def stripComment (line : List Char) : List Char := line.takeWhile fun c => c.toNat != 59

/-- Space or tab. -/
def isBlank (c : Char) : Bool := c.toNat == 32 || c.toNat == 9

/-- The words of a line; a comma is a word of its own. `cur` is the word being read, last character first. -/
def wordsFrom (cur : List Char) : List Char → List (List Char)
  | [] => if cur.isEmpty then [] else [cur.reverse]
  | c :: cs =>
    if isBlank c then (if cur.isEmpty then [] else [cur.reverse]) ++ wordsFrom [] cs
    else if c.toNat == 44 then (if cur.isEmpty then [] else [cur.reverse]) ++ [c] :: wordsFrom [] cs
    else wordsFrom (c :: cur) cs

/-- The value of a digit in bases up to 16. -/
def digitValue (c : Char) : Option Nat :=
  if 48 ≤ c.toNat ∧ c.toNat ≤ 57 then some (c.toNat - 48)
  else if 97 ≤ c.toNat ∧ c.toNat ≤ 102 then some (c.toNat - 87)
  else if 65 ≤ c.toNat ∧ c.toNat ≤ 70 then some (c.toNat - 55)
  else none

/-- The digits of a number in a base, after the value of those already read. -/
def digitsFrom (base acc : Nat) : List Char → Option Nat
  | [] => some acc
  | c :: cs =>
    match digitValue c with
    | some v => if v < base then digitsFrom base (acc * base + v) cs else none
    | none => none

/-- A number with at least one digit. -/
def digits (base : Nat) (cs : List Char) : Option Nat := if cs.isEmpty then none else digitsFrom base 0 cs

/-- A number: decimal, `0x` hexadecimal or `0b` binary (R69). -/
def parseNumber : List Char → Option Nat
  | '0' :: 'x' :: cs => digits 16 cs
  | '0' :: 'b' :: cs => digits 2 cs
  | cs => digits 10 cs

/-- The characters of a bit string, up to its closing quote, which ends the word. -/
def bitsToQuote : List Char → Option FrameBits
  | [] => none
  | c :: cs =>
    if c.toNat = 34 then (if cs.isEmpty then some [] else none)
    else if c = '0' then (bitsToQuote cs).map (false :: ·)
    else if c = '1' then (bitsToQuote cs).map (true :: ·)
    else none

/-- A quoted string of `0` and `1`, character j giving the bit at frame index j (R69). -/
def parseBits : List Char → Option FrameBits
  | [] => none
  | c :: cs => if c.toNat = 34 then bitsToQuote cs else none

/-- A statement of one word. -/
def parsePlain (w : List Char) : Option Stmt :=
  if w = "edge0".toList then some .edge0
  else if w = "edge1".toList then some .edge1
  else if w = "edge01".toList then some .edge01
  else if w = "tick".toList then some (.tick 1)
  else if w = "quiet".toList then some .quiet
  else if w = "nop".toList then some .nop
  else if w = "pend".toList then some .pend
  else if w = "reset".toList then some .reset
  else none

/-- A statement of a word and one operand; the gap of `send` is 1 where none is written (R70). -/
def parseOne (w a : List Char) : Option Stmt :=
  if w = "tick".toList then (parseNumber a).map .tick
  else if w = "read".toList then (parseNumber a).map .read
  else if w = "send".toList then (parseBits a).map (.send · 1)
  else none

/-- A statement of a word and two operands. -/
def parseTwo (w a b : List Char) : Option Stmt :=
  if w = "send".toList then
    match parseBits a, parseNumber b with
    | some bits, some g => some (.send bits g)
    | _, _ => none
  else if w = "decode".toList then
    match parseNumber a, parseBits b with
    | some d, some bits => some (.decode d bits)
    | _, _ => none
  else none

/-- The statements of one line: none on a blank or comment line, one otherwise; rejected when it is no statement. -/
def parseLine (line : List Char) : Option (List Stmt) :=
  match wordsFrom [] (stripComment line) with
  | [] => some []
  | [w] => (parsePlain w).map ([·])
  | [w, a] => (parseOne w a).map ([·])
  | [w, a, [','], b] => (parseTwo w a b).map ([·])
  | _ => none

/-- The statements of a program's text, one line each (R69). -/
def parseProgram : List (List Char) → Option (List Stmt)
  | [] => some []
  | line :: lines =>
    match parseLine line, parseProgram lines with
    | some xs, some ys => some (xs ++ ys)
    | _, _ => none

end Sys2Proof.Machine
end

