-- ==== Sys2Proof/Safety.lean ====
section
/-! DEFINITION. The terms the claims use: the invariant, reachable states, sequences of instructions, what an observer
sees, and the quiet counter of R29. -/

namespace Sys2Proof.Machine

/-- The buffer's one canonical form: exactly N cells (R22). -/
abbrev State.bufferWf (s : State) : Prop := s.buf.length = s.params.n

/-- A response fits the response port (R9, R62, R95): N wires of bits, and a raw value below 2^N. -/
abbrev Response.fits (n : Nat) (r : Response) : Prop := r.bits.length = n ∧ r.raw < 2 ^ n

/-- What holds of every reachable state: legal parameters (R119), N buffer cells (R22), `LEN ≤ N` (R21), `LAST ≤ NOW`
while bits are held (R27), transitions still due that the ports can carry, and a response that fits its port. -/
abbrev State.Inv (s : State) : Prop :=
  s.params.legal = true ∧ s.bufferWf ∧ s.len ≤ s.params.n ∧ (0 < s.len → s.last ≤ s.now) ∧
    (∀ t ∈ s.due, t.wellFormed s.params.n = true) ∧ (∀ r ∈ s.rsp, r.fits s.params.n)

/-- A state just after power-on reset (R34): `LEN = 0`; the buffer's cells, `LAST` and `NOW` hold anything. -/
abbrev State.PoweredOn (s : State) : Prop :=
  s.params.legal = true ∧ s.bufferWf ∧ s.len = 0 ∧ s.rsp = none ∧ s.due = []

/-- The states a run from power-on comes to, whatever the agents present (R116). -/
inductive Reachable : State → Prop
  | start (s : State) (h : s.PoweredOn) : Reachable s
  | next (s t : State) (h : Reachable s) (hs : step s = .next t) : Reachable t

/-- Instructions one after another, stopping at the first that does not answer a next state. -/
def execAll : List Instr → State → Host.Outcome State Fault Refusal
  | [], s => .next s
  | i :: is, s =>
    match exec i s with
    | .next t => execAll is t
    | .fault r => .fault r
    | .refused r => .refused r

/-- The instructions that are neither an edge event nor a command that can clear the buffer. -/
def passive : Instr → Bool
  | .nop => true
  | .pend => true
  | .read _ => false
  | .reset => false
  | .decode _ _ => true
  | .edge0 => false
  | .edge1 => false
  | .edge01 => false
  | .tick => true

/-- The edge events. -/
def isEdge : Instr → Bool
  | .nop => false
  | .pend => false
  | .read _ => false
  | .reset => false
  | .decode _ _ => false
  | .edge0 => true
  | .edge1 => true
  | .edge01 => true
  | .tick => false

/-- The ticks in a sequence of instructions. -/
def ticksIn (is : List Instr) : Nat := is.count .tick

/-- The edge event that delivers a bit (R11). -/
def edgeOf (b : Bool) : Instr := if b then .edge1 else .edge0

/-- The instructions that deliver a frame: each bit's edge event, then what happens before the next one. -/
def frameTrace (fs : List (Bool × List Instr)) : List Instr := fs.flatMap fun f => edgeOf f.1 :: f.2

/-- The bits of one outcome of edges on both lines, first to arrive first (R76). -/
def outcomeBits : BothEdgeOutcome → FrameBits
  | .order01 => [false, true]
  | .order10 => [true, false]
  | .keep0 => [false]
  | .keep1 => [true]

/-- The policy that fixes one outcome (R76). -/
def outcomePolicy : BothEdgeOutcome → BothEdgePolicy
  | .order01 => .order01
  | .order10 => .order10
  | .keep0 => .keep0
  | .keep1 => .keep1

/-- The bits an instruction delivers when the policy fixes the outcome `o`. -/
def edgeBits (o : BothEdgeOutcome) : Instr → FrameBits
  | .nop => []
  | .pend => []
  | .read _ => []
  | .reset => []
  | .decode _ _ => []
  | .edge0 => [false]
  | .edge1 => [true]
  | .edge01 => outcomeBits o
  | .tick => []

/-- What the outside sees of `k` steps: the response and the READY level after each (R116). -/
def observe : Nat → State → List (Option Response × Bool)
  | 0, _ => []
  | k + 1, s =>
    match step s with
    | .next t => (t.rsp, t.ready) :: observe k t
    | .fault _ => []
    | .refused _ => []

/-- The saturating quiet counter of R29 over one instruction, for the threshold `T`. -/
def quietNext (T : Nat) (i : Instr) (q : Nat) : Nat :=
  if isEdge i then 0 else if i = .tick then min (q + 1) T else q

/-- The quiet counter `q` stands for `LAST` and `NOW` of a state: it is the elapsed time, saturated at `T_TICKS`,
whenever bits are held (R29). -/
abbrev quietStandsFor (s : State) (q : Nat) : Prop :=
  q ≤ s.params.tTicks ∧ (0 < s.len → q = min s.elapsed s.params.tTicks)

end Sys2Proof.Machine
end

