-- ==== Sys2Proof/Certificates/Slice0/Obligations.lean ====
section
/-! DEFINITION. The statements for the provers, from the numbered rules of spec/. Where a clause is one the spec marks
`[derived: ...]` or rests on a choice of the model, the docstring says so. -/

open Sys2Proof Sys2Proof.Machine

/-! ### Encoding -/

/-- R59: the decoder reads exactly the five commands, by the fields of the word as numbers, and every other word is illegal. -/
def Obligations.CommandDecoderFollowsItsAlgorithm : Prop :=
  ∀ (n : Nat) (t : CommandTxn),
    (∀ i : Instr,
      decodeCommand n t = .instr i ↔
        t.word.toNat / 256 % 16 = 0 ∧
          (t.word.toNat / 4096 = 0 ∧ t.word.toNat % 256 = 0 ∧ i = .nop ∨
            t.word.toNat / 4096 = 1 ∧ t.word.toNat % 256 = 0 ∧ i = .pend ∨
            t.word.toNat / 4096 = 2 ∧ i = .read (BitVec.ofNat 8 (t.word.toNat % 256)) ∨
            t.word.toNat / 4096 = 3 ∧ t.word.toNat % 256 = 0 ∧ i = .reset ∨
            t.word.toNat / 4096 = 4 ∧ t.word.toNat % 256 ≤ n ∧
              i = .decode (BitVec.ofNat 8 (t.word.toNat % 256)) (finBus n t.fin))) ∧
      ((∃ i, decodeCommand n t = .instr i) ∨ ∃ why, decodeCommand n t = .illegal why)

/-- R60: exactly these words are illegal. -/
def Obligations.IllegalWordsAreExactlyThese : Prop :=
  ∀ (n : Nat) (t : CommandTxn),
    (∃ why, decodeCommand n t = .illegal why) ↔
      t.word.toNat / 256 % 16 ≠ 0 ∨ 5 ≤ t.word.toNat / 4096 ∨
        (t.word.toNat / 4096 = 0 ∨ t.word.toNat / 4096 = 1 ∨ t.word.toNat / 4096 = 3) ∧ t.word.toNat % 256 ≠ 0 ∨
        t.word.toNat / 4096 = 4 ∧ n < t.word.toNat % 256

/-- R53: the transitions of each of the eight event words. -/
def Obligations.EventWordsCauseTheirTransitions : Prop :=
  decodeEvent 0b000 = [] ∧ decodeEvent 0b001 = [.edge0] ∧ decodeEvent 0b010 = [.edge1] ∧
    decodeEvent 0b011 = [.edge01] ∧ decodeEvent 0b100 = [.tick] ∧ decodeEvent 0b101 = [.edge0, .tick] ∧
    decodeEvent 0b110 = [.edge1, .tick] ∧ decodeEvent 0b111 = [.edge01, .tick]

/-- R57 and the opcode table: a legal command word carries the match of its row under the row's mask, and an event
word causes an event exactly when it carries the event's pattern. -/
def Obligations.WordsFitTheirOpcodeRows : Prop :=
  (∀ (n : Nat) (t : CommandTxn) (i : Instr), decodeCommand n t = .instr i →
      ∃ mt mk, commandRow i = some (mt, mk) ∧ t.word &&& mk = mt) ∧
    ∀ (e : EventWord) (i : Instr) (mt mk : EventWord), eventRow i = some (mt, mk) →
      (i ∈ decodeEvent e ↔ e &&& mk = mt)

/-- Decoding what the encoder gives for a well-formed instruction gives it back, with every operand. -/
def Obligations.EncodeThenDecodeGivesBackTheInstruction : Prop :=
  ∀ (n : Nat) (i : Instr), i.wellFormed n = true →
    decodeInstant n (encode n i) = [.instr i] ∧ (encode n i).wellFormed n = true

/-- A legal command word is the one word of its instruction: encoding what it decodes to gives the word back. -/
def Obligations.DecodeThenEncodeGivesBackTheWord : Prop :=
  ∀ (n : Nat) (t : CommandTxn) (i : Instr), decodeCommand n t = .instr i →
    ∃ fin, encode n i = commandInstant t.word fin ∧ (i.wellFormed n = true) ∧
      (∀ d b, i = .decode d b → fin = b ∧ b = finBus n t.fin)

/-- Whatever stands on the ports, every transition the decoder gives is well formed, and there are at most three. -/
def Obligations.DecodedTransitionsAreWellFormed : Prop :=
  ∀ (n : Nat) (x : Instant), (decodeInstant n x).length ≤ 3 ∧ ∀ t ∈ decodeInstant n x, t.wellFormed n = true

/-- Words written out from the spec's encodings (R53, R57), with N = 32 and N = 64. -/
def Obligations.SpecWordsDecodeToTheirInstructions : Prop :=
  ∀ fin : FrameBits,
    decodeCommand 32 ⟨0x0000, fin⟩ = .instr .nop ∧ decodeCommand 32 ⟨0x1000, fin⟩ = .instr .pend ∧
      decodeCommand 32 ⟨0x20FF, fin⟩ = .instr (.read 255) ∧ decodeCommand 32 ⟨0x3000, fin⟩ = .instr .reset ∧
      decodeCommand 32 ⟨0x401A, fin⟩ = .instr (.decode 26 (finBus 32 fin)) ∧
      decodeCommand 32 ⟨0x4021, fin⟩ = .illegal .lengthOverCapacity ∧
      decodeCommand 64 ⟨0x4021, fin⟩ = .instr (.decode 33 (finBus 64 fin)) ∧
      decodeCommand 32 ⟨0x2100, fin⟩ = .illegal .reservedBits ∧
      decodeCommand 32 ⟨0x5000, fin⟩ = .illegal .reservedOp ∧
      decodeInstant 32 (eventInstant 0b011) = [.instr .edge01]

/-! ### The result of each instruction -/

/-- R83: NOP. -/
def Obligations.NopAnswersOkAndChangesNothing : Prop :=
  ∀ (s : State) (fin : FrameBits),
    (∀ w : CommandWord, decodeCommand s.params.n ⟨w, fin⟩ = .instr .nop ↔ w = 0x0000) ∧
      exec .nop s = .next { s with rsp := some ⟨.ok, 0, List.replicate s.params.n false, 0, 0, 0, false⟩ } ∧
      ∀ t, exec .nop s = .next t → t.ready = s.ready

/-- R79, R81: PEND answers the pending count; the count fits its 8 bits in every state of the invariant. -/
def Obligations.PendAnswersThePendingCount : Prop :=
  ∀ (s : State) (fin : FrameBits) (p : Nat),
    p = (if s.len = 0 then 0 else if s.now - s.last ≥ s.params.tTicks then s.len else 0) →
      (∀ w : CommandWord, decodeCommand s.params.n ⟨w, fin⟩ = .instr .pend ↔ w = 0x1000) ∧
        s.pending = p ∧
        exec .pend s = .next { s with rsp := some ⟨.ok, BitVec.ofNat 8 p,
          List.replicate s.params.n false, 0, 0, 0, false⟩ } ∧
        (s.Inv → (BitVec.ofNat 8 p).toNat = p) ∧
        ∀ t, exec .pend s = .next t → t.ready = s.ready

/-- R82: TICK; the READY clause for every state of the invariant. -/
def Obligations.TickAdvancesNowByOne : Prop :=
  ∀ s : State,
    (∀ e : EventWord, .tick ∈ decodeEvent e ↔ 4 ≤ e.toNat) ∧
      ∃ t, exec .tick s = .next t ∧ t.now = s.now + 1 ∧ t.len = s.len ∧ t.buf = s.buf ∧ t.last = s.last ∧
        (s.Inv →
          (s.ready = true → t.ready = true) ∧
            (s.ready = false ∧ t.ready = true ↔ 0 < s.len ∧ t.now - t.last = s.params.tTicks))

/-- R78: RESET (that READY becomes 0, the rule's own derived clause, follows from `PhaseMachineFollowsItsTable`). -/
def Obligations.ResetClearsOnlyTheLength : Prop :=
  ∀ (s : State) (fin : FrameBits),
    (∀ w : CommandWord, decodeCommand s.params.n ⟨w, fin⟩ = .instr .reset ↔ w = 0x3000) ∧
      exec .reset s = .next { s with len := 0, rsp := some ⟨.ok, 0,
        List.replicate s.params.n false, 0, 0, 0, false⟩ }

/-- R73, R74, R75: EDGE0 appends 0 and EDGE1 appends 1, or the bit is dropped; `LAST` is stamped in both cases (that
READY becomes 0, the rules' own derived clause, follows from `PhaseMachineFollowsItsTable`). -/
def Obligations.EdgeAppendsItsBitOrDropsIt : Prop :=
  ∀ (s : State) (i : Instr) (b : Bool) (k : Nat), (i, b, k) ∈ [(Instr.edge0, false, 1), (Instr.edge1, true, 2)] →
    (∀ e : EventWord, i ∈ decodeEvent e ↔ e.toNat % 4 = k) ∧
      ∃ t, exec i s = .next t ∧ t.last = s.now ∧ t.now = s.now ∧
        (s.len < s.params.n → t.len = s.len + 1 ∧ t.buf = s.buf.set s.len b) ∧
        (¬ s.len < s.params.n → t.len = s.len ∧ t.buf = s.buf)

/-- R76: EDGE01 under each policy, in terms of single edges; under ANY it has one of the four outcomes (that READY becomes
0, the rule's own derived clause, follows from `PhaseMachineFollowsItsTable`). -/
def Obligations.BothEdgesFollowThePolicy : Prop :=
  ∀ s : State,
    (∀ e : EventWord, .edge01 ∈ decodeEvent e ↔ e.toNat % 4 = 3) ∧
      (s.params.bothEdge = .order01 → exec .edge01 s = execAll [.edge0, .edge1] s) ∧
      (s.params.bothEdge = .order10 → exec .edge01 s = execAll [.edge1, .edge0] s) ∧
      (s.params.bothEdge = .keep0 → exec .edge01 s = exec .edge0 s) ∧
      (s.params.bothEdge = .keep1 → exec .edge01 s = exec .edge1 s) ∧
      (s.params.bothEdge = .any →
        ∃ is ∈ [[Instr.edge0, Instr.edge1], [Instr.edge1, Instr.edge0], [Instr.edge0], [Instr.edge1]], ∃ t u,
          execAll is s = .next t ∧ exec .edge01 s = .next u ∧ u.len = t.len ∧ u.buf = t.buf ∧ u.last = t.last ∧
            u.now = t.now) ∧
      ∃ t, exec .edge01 s = .next t ∧ t.last = s.now ∧ t.now = s.now ∧
        (s.params.n ≤ s.len → t.len = s.len ∧ t.buf = s.buf) ∧
        (s.bufferWf → s.len ≤ s.params.n → t.bufferWf ∧ s.len ≤ t.len ∧ t.len ≤ s.params.n)

/-- R87, R88, R89: READ drains a complete frame, or returns nothing. -/
def Obligations.ReadDrainsACompleteFrameOrNothing : Prop :=
  ∀ (s : State) (m : BitCount) (fin : FrameBits),
    (∀ w : CommandWord, decodeCommand s.params.n ⟨w, fin⟩ = .instr (.read m) ↔ w.toNat = 0x2000 + m.toNat) ∧
      (¬ (0 < s.len ∧ s.params.tTicks ≤ s.now - s.last) →
        exec (.read m) s = .next { s with rsp := some ⟨.ok, 0, List.replicate s.params.n false, 0, 0, 0, false⟩ }) ∧
      (0 < s.len ∧ s.params.tTicks ≤ s.now - s.last →
        exec (.read m) s = .next { s with len := 0, rsp := some ⟨.ok, BitVec.ofNat 8 s.len,
          (List.range s.params.n).map fun i => if i < min s.len m.toNat then s.buf.getD i false else false,
          0, 0, 0, false⟩ }) ∧
      ∀ t, exec (.read m) s = .next t → t.ready = false

/-- R92: READ has no error outcome. -/
def Obligations.ReadHasNoErrorOutcome : Prop :=
  ∀ (s : State) (m : BitCount), s.Inv →
    ∃ t r, exec (.read m) s = .next t ∧ t.rsp = some r ∧ r.status = .ok ∧ r.count.toNat ≤ s.params.n ∧
      r.count.toNat = s.pending

/-- R98, R99: DECODE answers the fields `extract` computes and the length indication, and writes no state. -/
def Obligations.DecodeAnswersTheFieldsOfItsFrame : Prop :=
  ∀ (s : State) (d : BitCount) (fin : FrameBits) (f : Fields), d.toNat ≤ s.params.n →
    f = extract ((List.range d.toNat).map fun i => fin.getD i false) →
      (∀ w : CommandWord, fin.length = s.params.n →
        (decodeCommand s.params.n ⟨w, fin⟩ = .instr (.decode d fin) ↔ w.toNat = 0x4000 + d.toNat)) ∧
        exec (.decode d fin) s = .next { s with rsp := some ⟨.ok, 0, List.replicate s.params.n false, f.raw,
          BitVec.ofNat 8 f.fac, BitVec.ofNat 16 f.card, decide (d.toNat = 26)⟩ } ∧
        (BitVec.ofNat 8 f.fac).toNat = f.fac ∧ (BitVec.ofNat 16 f.card).toNat = f.card ∧
        ∀ t, exec (.decode d fin) s = .next t → t.ready = s.ready

/-- A DECODE term whose count is over the capacity, which no word decodes to, answers ILLEGAL (the model's own choice,
log 14). -/
def Obligations.DecodeOverCapacityAnswersIllegal : Prop :=
  ∀ (s : State) (d : BitCount) (fin : FrameBits), s.params.n < d.toNat →
    exec (.decode d fin) s = .next { s with rsp := some ⟨.illegal, 0, List.replicate s.params.n false, 0, 0, 0, false⟩ } ∧
      ∀ t : CommandTxn, decodeCommand s.params.n t ≠ .instr (.decode d fin)

/-- R61: a step on an illegal command word changes no state and answers ILLEGAL with every other field 0, alone or as
one of several transitions of an instant. -/
def Obligations.IllegalWordAnswersIllegal : Prop :=
  (∀ (s : State) (w : CommandWord) (fin : FrameBits) (rest : List Instant) (why : Illegal),
      s.params.legal = true → s.due = [] → s.inputs = commandInstant w fin :: rest →
      decodeCommand s.params.n ⟨w, fin⟩ = .illegal why →
        step s = .next { s with inputs := rest, rsp := some ⟨.illegal, 0,
           List.replicate s.params.n false, 0, 0, 0, false⟩ }) ∧
    ∀ (s : State) (why : Illegal),
      perform (.illegal why) s = .next { s with rsp := some ⟨.illegal, 0, List.replicate s.params.n false, 0, 0, 0, false⟩ }

/-- R63: which response fields each command sets, every other one being 0. -/
def Obligations.EachCommandSetsOnlyItsResponseFields : Prop :=
  ∀ s t : State,
    (exec .nop s = .next t → t.rsp = some ⟨.ok, 0, List.replicate s.params.n false, 0, 0, 0, false⟩) ∧
      (exec .pend s = .next t → ∃ c, t.rsp = some ⟨.ok, c, List.replicate s.params.n false, 0, 0, 0, false⟩) ∧
      (∀ m : BitCount, exec (.read m) s = .next t →
        ∃ c bits, t.rsp = some ⟨.ok, c, bits, 0, 0, 0, false⟩ ∧ bits.length = s.params.n ∧
          ∀ j, m.toNat ≤ j → bits.getD j false = false) ∧
      (exec .reset s = .next t → t.rsp = some ⟨.ok, 0, List.replicate s.params.n false, 0, 0, 0, false⟩) ∧
      (∀ (d : BitCount) (fin : FrameBits), d.toNat ≤ s.params.n → exec (.decode d fin) s = .next t →
        ∃ raw fac card l, t.rsp = some ⟨.ok, 0, List.replicate s.params.n false, raw, fac, card, l⟩) ∧
      ∀ why : Illegal, perform (.illegal why) s = .next t →
        t.rsp = some ⟨.illegal, 0, List.replicate s.params.n false, 0, 0, 0, false⟩

/-! ### The extractor -/

/-- R94: `extract` of no bits is all zeros, and one more bit at frame index i is shifted into `raw`, into `fac` when
1 ≤ i ≤ 8 and into `card` when 9 ≤ i ≤ 24. -/
def Obligations.ExtractShiftsInEachBitByItsIndex : Prop :=
  extract [] = ⟨0, 0, 0⟩ ∧
    ∀ (bits : FrameBits) (b : Bool),
      (extract (bits ++ [b])).raw = 2 * (extract bits).raw + (if b then 1 else 0) ∧
        (extract (bits ++ [b])).fac =
          (if 1 ≤ bits.length ∧ bits.length ≤ 8 then 2 * (extract bits).fac + (if b then 1 else 0)
            else (extract bits).fac) ∧
        (extract (bits ++ [b])).card =
          (if 9 ≤ bits.length ∧ bits.length ≤ 24 then 2 * (extract bits).card + (if b then 1 else 0)
            else (extract bits).card)

/-- The closed form of raw (R95, which the spec derives): the first bit is the most significant, and raw is below
2^d. -/
def Obligations.RawIsTheFrameReadMsbFirst : Prop :=
  ∀ bits : FrameBits,
    (extract bits).raw =
        ∑ i ∈ Finset.range bits.length, (if bits.getD i false then 1 else 0) * 2 ^ (bits.length - 1 - i) ∧
      (extract bits).raw < 2 ^ bits.length

/-- The closed form of facility (R96, which the spec derives), short frames included. -/
def Obligations.FacilityIsBitsOneToEight : Prop :=
  ∀ bits : FrameBits,
    (extract bits).fac =
        (if bits.length ≤ 1 then 0
          else ∑ i ∈ Finset.Icc 1 (min 8 (bits.length - 1)),
            (if bits.getD i false then 1 else 0) * 2 ^ (min 8 (bits.length - 1) - i)) ∧
      (extract bits).fac ≤ 255

/-- The closed form of card (R97, which the spec derives), short frames included. -/
def Obligations.CardIsBitsNineToTwentyFour : Prop :=
  ∀ bits : FrameBits,
    (extract bits).card =
        (if bits.length ≤ 9 then 0
          else ∑ i ∈ Finset.Icc 9 (min 24 (bits.length - 1)),
            (if bits.getD i false then 1 else 0) * 2 ^ (min 24 (bits.length - 1) - i)) ∧
      (extract bits).card ≤ 65535

/-- The 26-bit layout (the last sentence of R97, which the spec derives): parity, facility, card, parity make up raw. -/
def Obligations.TwentySixBitFrameIsParityFacilityCardParity : Prop :=
  ∀ bits : FrameBits, bits.length = 26 →
    (extract bits).raw =
      (if bits.getD 0 false then 1 else 0) * 2 ^ 25 + (extract bits).fac * 2 ^ 17 + (extract bits).card * 2 +
        (if bits.getD 25 false then 1 else 0)

/-- Wires of `FIN_BITS` at indices ≥ d are ignored (in R58, R99), and an instruction other than DECODE has no bus
operand at all. -/
def Obligations.DecodeIgnoresWiresBeyondItsCount : Prop :=
  ∀ (s : State) (d : BitCount) (fin fin' : FrameBits),
    (∀ j, j < d.toNat → fin.getD j false = fin'.getD j false) →
      exec (.decode d fin) s = exec (.decode d fin') s

/-- Decoding the frame a READ delivered (R90, R101): DECODE with d = min(L, m) on the READ's bits reads the first d
stored bits, first bit most significant, also when the READ was truncated. -/
def Obligations.DecodingAReadFrameReadsTheDeliveredBits : Prop :=
  ∀ (s : State) (m d : BitCount), s.Inv → 0 < s.pending → d.toNat = min s.len m.toNat →
    ∃ t r u q, exec (.read m) s = .next t ∧ t.rsp = some r ∧ r.count.toNat = s.len ∧
      r.frame m = (s.len, s.buf.take d.toNat) ∧
      exec (.decode d r.bits) t = .next u ∧ u.rsp = some q ∧ q.status = .ok ∧
      q.raw = ∑ i ∈ Finset.range d.toNat, (if s.buf.getD i false then 1 else 0) * 2 ^ (d.toNat - 1 - i)

/-! ### Frames -/

/-- What NOP, PEND and DECODE leave unchanged: everything but the response port. -/
def Obligations.QueriesChangeOnlyTheResponse : Prop :=
  ∀ (i : Instr) (s t : State), (i = .nop ∨ i = .pend ∨ ∃ d fin, i = .decode d fin) → exec i s = .next t →
    t.params = s.params ∧ t.len = s.len ∧ t.buf = s.buf ∧ (∀ j, t.bufRead j = s.bufRead j) ∧ t.last = s.last ∧
      t.now = s.now ∧ t.inputs = s.inputs ∧ t.due = s.due ∧ t.freeIx = s.freeIx

/-- What RESET and READ leave unchanged: everything but `LEN` and the response port; every buffer cell keeps its bit. -/
def Obligations.ClearingCommandsChangeOnlyLenAndResponse : Prop :=
  ∀ (i : Instr) (s t : State), (i = .reset ∨ ∃ m, i = .read m) → exec i s = .next t →
    t.params = s.params ∧ t.buf = s.buf ∧ (∀ j, t.bufRead j = s.bufRead j) ∧ t.last = s.last ∧ t.now = s.now ∧
      t.inputs = s.inputs ∧ t.due = s.due ∧ t.freeIx = s.freeIx ∧
      t.len = (if i = .reset ∨ 0 < s.pending then 0 else s.len)

/-- What a TICK leaves unchanged: everything but `NOW`; the response port is idle (log 8). -/
def Obligations.TickChangesOnlyNow : Prop :=
  ∀ s t : State, exec .tick s = .next t →
    t.params = s.params ∧ t.len = s.len ∧ t.buf = s.buf ∧ (∀ j, t.bufRead j = s.bufRead j) ∧ t.last = s.last ∧
      t.inputs = s.inputs ∧ t.due = s.due ∧ t.freeIx = s.freeIx ∧ t.rsp = none

/-- What an edge event leaves unchanged: `NOW`, the parameters, the ports, and every buffer cell but the one at `LEN`
(and, for EDGE01, the next one), which only an edge that finds room writes; the response port is idle (log 8). -/
def Obligations.EdgeLeavesEveryOtherCellAlone : Prop :=
  ∀ (i : Instr) (s t : State), isEdge i = true → exec i s = .next t →
    t.params = s.params ∧ t.now = s.now ∧ t.inputs = s.inputs ∧ t.due = s.due ∧ t.last = s.now ∧ t.rsp = none ∧
      (i ≠ .edge01 → t.freeIx = s.freeIx) ∧
      ∀ j, (j < s.len ∨ s.params.n ≤ j ∨ s.len < j ∧ i ≠ .edge01 ∨ s.len + 1 < j) → t.bufRead j = s.bufRead j

/-- The access table of R33 (which the spec derives), by state element: who may write it. -/
def Obligations.OnlyTheAccessTableWrites : Prop :=
  ∀ (x : Transition) (s t : State), perform x s = .next t →
    (t.len ≠ s.len → x = .powerOn ∨ ∃ i, x = .instr i ∧ (isEdge i = true ∨ i = .reset ∨ ∃ m, i = .read m)) ∧
      (t.buf ≠ s.buf → x = .powerOn ∨ ∃ i, x = .instr i ∧ isEdge i = true) ∧
      (t.last ≠ s.last → x = .powerOn ∨ ∃ i, x = .instr i ∧ isEdge i = true) ∧
      (t.now ≠ s.now → x = .powerOn ∨ x = .instr .tick) ∧
      (t.freeIx ≠ s.freeIx → x = .powerOn ∨ x = .instr .edge01) ∧
      t.params = s.params ∧ t.inputs = s.inputs ∧ t.due = s.due

/-! ### Steps -/

/-- A step runs the decoded instruction: the one the next sample of the ports decodes to, or the one still due. The other
clauses are the model's choices: with nothing presented, or an empty sample, a step only waits with no response (log 9,
log 8), and with N = 32 a 16-bit command word presented by `withFetchWord` runs next (log 7, log 16; event words are not
in this clause). -/
def Obligations.StepRunsTheDecodedInstruction : Prop :=
  ∀ s : State, s.params.legal = true →
    (∀ x rest i, s.due = [] → s.inputs = x :: rest → decodeInstant s.params.n x = [.instr i] →
        step s = exec i { s with inputs := rest }) ∧
      (∀ i, s.due = [.instr i] → step s = exec i { s with due := [] }) ∧
      (s.due = [] → s.inputs = [] → step s = .next { s with rsp := none }) ∧
      (∀ x rest, s.due = [] → s.inputs = x :: rest → decodeInstant s.params.n x = [] →
        step s = .next { s with inputs := rest, rsp := none }) ∧
      (∀ w i, s.params.n = 32 → decodeTableWord 16 w = some i →
        step (s.withFetchWord 16 w) = exec i { s with due := [] })

/-- Of several transitions that arrived in one instant (R106) a step performs some one, and the others stay due. That a step
is one transition, and that its choice is a free value, are the model's (log 6). -/
def Obligations.StepPerformsSomeTransitionOfTheInstant : Prop :=
  ∀ (s : State) (ts : List Transition), s.params.legal = true → 2 ≤ ts.length →
    (s.due = ts → ∃ k x, ts[k]? = some x ∧
      step s = perform x { s with due := ts.eraseIdx k, freeIx := s.freeIx + 1 }) ∧
      (∀ y rest, s.due = [] → s.inputs = y :: rest → decodeInstant s.params.n y = ts → ∃ k x, ts[k]? = some x ∧
        step s = perform x { s with inputs := rest, due := ts.eraseIdx k, freeIx := s.freeIx + 1 })

/-- An event word with an edge part and a tick causes the edge transition and TICK (R54), in one of the two orders; that each
takes a step of its own is the model's choice (log 6). -/
def Obligations.EdgeAndTickRunInOneOfTwoOrders : Prop :=
  ∀ (s : State) (e : EventWord) (i : Instr) (rest : List Instant),
    s.params.legal = true → s.due = [] → s.inputs = eventInstant e :: rest → decodeEvent e = [i, .tick] →
      ∃ is ∈ [[i, .tick], [.tick, i]],
        (Host.Core.run Sys2Proof.core 2 s : Host.Outcome State Fault Refusal) =
          execAll is { s with inputs := rest, freeIx := s.freeIx + 1 }

/-- While `RST` is asserted no event and no command is taken; `LEN` is 0, READY is 0 and the phase is Idle (in R117). What
`BUF`, `LAST` and `NOW` become is not stated (they are unspecified). That there is no response is R118's, which the spec
derives, and as the field `rsp` it is the model's choice (log 8). -/
def Obligations.PowerOnResetClearsAndTakesNothing : Prop :=
  ∀ (s : State) (x : Instant) (rest : List Instant),
    s.params.legal = true → s.due = [] → s.inputs = x :: rest → x.rst = true →
      (∃ t, step s = .next t ∧ t.len = 0 ∧ t.ready = false ∧ t.phase = .idle ∧ t.rsp = none ∧ t.inputs = rest ∧
        t.due = [] ∧ t.params = s.params ∧ t.bufferWf) ∧
        ∀ y : Instant, y.rst = true → step { s with inputs := y :: rest } = step s

/-- `LEN`, READY and the phase of the state after reset (R34); the model's choices for `BUF`, `LAST` and `NOW` (log 3) are
not stated. That no response stands at reset is the model's choice (log 8), and nothing due too (log 6). -/
def Obligations.ResetStateIsIdleAndNotReady : Prop :=
  State.reset.len = 0 ∧ State.reset.ready = false ∧ State.reset.phase = .idle ∧ State.reset.rsp = none ∧
    State.reset.PoweredOn

/-- R102: no transition stops, hangs or faults the block; every instruction and every step completes. -/
def Obligations.EveryTransitionCompletes : Prop :=
  (∀ (i : Instr) (s : State), ∃ t, exec i s = .next t) ∧ (∀ (x : Transition) (s : State), ∃ t, perform x s = .next t) ∧
    ∀ s : State, s.params.legal = true → ∃ t, step s = .next t

/-- The one refusal: parameters outside their legal range (93_implementation_defined.md). -/
def Obligations.OnlyIllegalParametersAreRefused : Prop :=
  ∀ (s : State) (r : Refusal), step s = .refused r ↔
    r = .illegalParameters ∧
      ¬ (1 ≤ s.params.n ∧ s.params.n ≤ 255 ∧ 1 ≤ s.params.tTicks ∧ 0 < s.params.tickPeriod)

/-- No step writes the parameters (R30, R119; that the model carries them in its state is log 1). -/
def Obligations.ParametersNeverChange : Prop :=
  ∀ s t : State, step s = .next t → t.params = s.params

/-- R26: `NOW` changes only by TICK, which adds 1 (power-on reset, which leaves it unspecified, apart). -/
def Obligations.NowChangesOnlyByTick : Prop :=
  ∀ s t : State, step s = .next t → s.nextTransition.2 ≠ some .powerOn →
    t.now = (if s.nextTransition.2 = some (.instr .tick) then s.now + 1 else s.now) ∧ s.now ≤ t.now

/-! ### The detector, READY and the phases -/

/-- The properties of `pending` (R80, which the spec derives). -/
def Obligations.PendingIsZeroOrTheLength : Prop :=
  ∀ s : State,
    (s.pending = 0 ∨ s.pending = s.len) ∧ (s.len ≤ s.params.n → s.pending ≤ s.params.n) ∧
      (s.now - s.last < s.params.tTicks → s.pending = 0) ∧
      ∀ (i : Instr) (t : State), exec i s = .next t → (i = .pend ∨ i = .nop ∨ ∃ d fin, i = .decode d fin) →
        t.pending = s.pending

/-- R85: the phases as conditions on the state, and READY is 1 exactly in phase Ready. -/
def Obligations.ReadyAndPhasesPartitionTheStates : Prop :=
  ∀ s : State,
    (s.ready = true ↔ s.phase = .ready) ∧ (s.phase = .idle ↔ s.len = 0) ∧
      (s.phase = .accumulating ↔ 0 < s.len ∧ s.now - s.last < s.params.tTicks) ∧
      (s.phase = .ready ↔ 0 < s.len ∧ s.params.tTicks ≤ s.now - s.last)

/-- The phase machine (R86, which the spec derives), for every transition. -/
def Obligations.PhaseMachineFollowsItsTable : Prop :=
  (∀ (i : Instr) (s t : State), s.Inv → exec i s = .next t →
      t.phase =
        match i with
        | .edge0 => .accumulating
        | .edge1 => .accumulating
        | .edge01 => .accumulating
        | .tick =>
          if s.phase = .accumulating ∧ s.now + 1 - s.last = s.params.tTicks then .ready else s.phase
        | .read _ => if s.phase = .ready then .idle else s.phase
        | .reset => .idle
        | .pend => s.phase
        | .nop => s.phase
        | .decode _ _ => s.phase) ∧
    ∀ (why : Illegal) (s t : State), perform (.illegal why) s = .next t → t.phase = s.phase

/-- R43: PEND, NOP and DECODE, and a READ that finds nothing, change nothing but the response; given again they and RESET
answer the same; a second READ after a drain returns a count of 0. -/
def Obligations.RepeatedCommandsAreIdempotentButForADrain : Prop :=
  ∀ (s t : State) (m m' : BitCount),
    (∀ i, (i = .pend ∨ i = .nop ∨ ∃ d fin, i = .decode d fin) → exec i s = .next t →
        t = { s with rsp := t.rsp } ∧ exec i t = .next t) ∧
      (exec .reset s = .next t → exec .reset t = .next t) ∧
      (exec (.read m) s = .next t → s.pending = 0 → t = { s with rsp := t.rsp } ∧ exec (.read m) t = .next t) ∧
      (exec (.read m) s = .next t → 0 < s.pending → t.len = 0 ∧ ∃ u, exec (.read m') t = .next u ∧ u.len = 0 ∧
        ∃ r, u.rsp = some r ∧ r.count = 0 ∧ r.bits = List.replicate s.params.n false)

/-- A frame becomes ready exactly when the quiet period has passed (R79, R122, R123): after an edge, and whatever passive
instructions follow, READY is 1 exactly when they hold at least `T_TICKS` ticks, and the bits are kept. -/
def Obligations.FrameIsReadyExactlyAfterTheQuietPeriod : Prop :=
  ∀ (s t : State) (i : Instr) (is : List Instr), s.Inv → isEdge i = true → exec i s = .next t →
    (∀ j ∈ is, passive j = true) →
      ∃ u, execAll is t = .next u ∧ (u.ready = true ↔ s.params.tTicks ≤ ticksIn is) ∧ u.len = t.len ∧ u.buf = t.buf ∧
        u.last = s.now ∧ u.now = s.now + ticksIn is

/-- The merge (R124, which the spec derives): an edge on a complete, undrained frame joins it and returns the block to
Accumulating, and nothing signals it (that the field `rsp` is none is the model's choice, log 8). -/
def Obligations.EdgeOnAReadyFrameMergesIntoIt : Prop :=
  ∀ (s : State) (b : Bool), s.Inv → s.phase = .ready →
    ∃ t, exec (edgeOf b) s = .next t ∧ t.phase = .accumulating ∧ t.rsp = none ∧ t.last = s.now ∧
      t.len = min (s.len + 1) s.params.n ∧ (∀ j, j < s.len → t.bufRead j = s.bufRead j) ∧
      (s.len < s.params.n → t.bufRead s.len = b)

/-- Where the order of two transitions of one instant changes the result (R107, which the spec derives). -/
def Obligations.OrderOfOneInstantChangesTheResult : Prop :=
  ∀ (s : State) (b : Bool) (m : BitCount), s.Inv →
    (s.phase = .ready →
      (∃ t u, exec (edgeOf b) s = .next t ∧ exec (.read m) t = .next u ∧ u.len = min (s.len + 1) s.params.n ∧
        ∃ r, u.rsp = some r ∧ r.count = 0) ∧
        (∃ t u, exec (.read m) s = .next t ∧ exec (edgeOf b) t = .next u ∧ u.len = 1 ∧ u.bufRead 0 = b ∧
          ∃ r, t.rsp = some r ∧ r.count.toNat = s.len) ∧
        (∃ t u r, exec (edgeOf b) s = .next t ∧ exec .pend t = .next u ∧ u.rsp = some r ∧ r.count = 0) ∧
        ∃ t r, exec .pend s = .next t ∧ t.rsp = some r ∧ r.count.toNat = s.len) ∧
      ((∃ t, execAll [edgeOf b, .reset] s = .next t ∧ t.len = 0) ∧
        ∃ t, execAll [.reset, edgeOf b] s = .next t ∧ t.len = 1 ∧ t.bufRead 0 = b) ∧
      (0 < s.len → s.now + 1 - s.last = s.params.tTicks →
        (∃ t r, execAll [.tick, .pend] s = .next t ∧ t.rsp = some r ∧ r.count.toNat = s.len) ∧
          ∃ t r, exec .pend s = .next t ∧ t.rsp = some r ∧ r.count = 0) ∧
      ((∃ t, execAll [.tick, edgeOf b] s = .next t ∧ t.last = s.now + 1 ∧ t.now = s.now + 1) ∧
        ∃ t, execAll [edgeOf b, .tick] s = .next t ∧ t.last = s.now ∧ t.now = s.now + 1)

/-! ### Headlines -/

/-- The invariant (R21, R22, R27, R95) is kept by every step from every state that has it. -/
def Obligations.EveryStepKeepsTheInvariant : Prop :=
  ∀ s t : State, s.Inv → step s = .next t → t.Inv

/-- The state after reset has the invariant. -/
def Obligations.ResetStateHasTheInvariant : Prop := State.reset.Inv

/-- Every state reachable from power-on, whatever `BUF`, `LAST` and `NOW` come up as and whatever the agents present,
has the invariant and completes its next step (R21, R27, R102, R116). -/
def Obligations.EveryReachableStateIsSoundAndLive : Prop :=
  ∀ s : State, Reachable s → s.Inv ∧ ∃ t, step s = .next t

/-- Cell validity (R23, which the spec derives; overflow by R77): over any instructions but READ and RESET, the buffer
holds, in order, the first N bits delivered since it was cleared, and no more. -/
def Obligations.BufferHoldsTheFirstBitsDelivered : Prop :=
  ∀ (o : BothEdgeOutcome) (is : List Instr) (s : State) (bits : FrameBits),
    s.Inv → s.params.bothEdge = outcomePolicy o → (∀ i ∈ is, passive i = true ∨ isEdge i = true) →
      bits = is.flatMap (edgeBits o) →
        ∃ t, execAll is s = .next t ∧ t.len = min (s.len + bits.length) s.params.n ∧
          t.buf.take t.len = (s.buf.take s.len ++ bits).take s.params.n

/-- Exactly once (R91, which the spec derives): a frame of at most N bits whose gaps are shorter than the quiet period,
once that has passed, is returned whole and in arrival order by the first READ that asks for as many bits, and the next
READ returns nothing. -/
def Obligations.FrameIsReadExactlyOnce : Prop :=
  ∀ (s : State) (fs : List (Bool × List Instr)) (m m' : BitCount),
    s.Inv → s.len = 0 → fs ≠ [] → fs.length ≤ s.params.n → fs.length ≤ m.toNat →
    (∀ f ∈ fs, ∀ i ∈ f.2, passive i = true) → (∀ f ∈ fs.dropLast, ticksIn f.2 < s.params.tTicks) →
    (∀ f ∈ fs.getLast?, s.params.tTicks ≤ ticksIn f.2) →
      ∃ t u v, execAll (frameTrace fs) s = .next t ∧ exec (.read m) t = .next u ∧ exec (.read m') u = .next v ∧
        u.rsp = some ⟨.ok, BitVec.ofNat 8 fs.length,
          fs.map Prod.fst ++ List.replicate (s.params.n - fs.length) false, 0, 0, 0, false⟩ ∧
        v.rsp = some ⟨.ok, 0, List.replicate s.params.n false, 0, 0, 0, false⟩ ∧ v.len = 0

/-- Before the quiet period has passed (R91, which the spec derives), every READ returns a count of 0 and changes
nothing. -/
def Obligations.ReadBeforeTheQuietPeriodFindsNothing : Prop :=
  ∀ (s : State) (fs : List (Bool × List Instr)) (m : BitCount),
    s.Inv → s.len = 0 → (∀ f ∈ fs, ∀ i ∈ f.2, passive i = true) →
    (∀ f ∈ fs, ticksIn f.2 < s.params.tTicks) →
      ∃ t, execAll (frameTrace fs) s = .next t ∧
        exec (.read m) t = .next { t with rsp := some ⟨.ok, 0, List.replicate s.params.n false, 0, 0, 0, false⟩ }

/-- The saturating quiet counter (R29, which the spec derives) stands for `LAST` and `NOW`: it follows every
instruction, and gives the same pending count. -/
def Obligations.QuietCounterStandsForLastAndNow : Prop :=
  ∀ (s t : State) (q : Nat) (i : Instr), s.Inv → quietStandsFor s q →
    s.pending = (if s.len = 0 then 0 else if q = s.params.tTicks then s.len else 0) ∧
      (exec i s = .next t → quietStandsFor t (quietNext s.params.tTicks i q))

/-- The unspecified values of power-on are never observable (R35, which the spec derives): two states just after
power-on that differ in `BUF`, `LAST` and `NOW` show the same responses and READY levels over any run. -/
def Obligations.PowerOnValuesAreNeverObservable : Prop :=
  ∀ (k : Nat) (s t : State), s.PoweredOn → t.PoweredOn → s.params = t.params → s.inputs = t.inputs →
    s.freeIx = t.freeIx → observe k s = observe k t

/-- Presented on the ports one after another, the encodings of well-formed instructions run as the instructions do. -/
def Obligations.EncodedInstructionsRunAsTheirMeanings : Prop :=
  ∀ (is : List Instr) (s : State) (rest : List Instant),
    s.params.legal = true → s.due = [] → (∀ i ∈ is, i.wellFormed s.params.n = true) →
      (Host.Core.run Sys2Proof.core is.length { s with inputs := is.map (encode s.params.n) ++ rest } :
          Host.Outcome State Fault Refusal) =
        execAll is { s with inputs := rest }

/-! ### The assembler -/

/-- Each statement presents the words of its transition (R69), and an operand out of range or a string of another
length is rejected. -/
def Obligations.StatementsPresentTheirTransitions : Prop :=
  ∀ (p : Params) (m d : Nat) (bits : FrameBits), p.legal = true →
    (∀ st i, (st, i) ∈ [(Stmt.edge0, Instr.edge0), (Stmt.edge1, Instr.edge1), (Stmt.edge01, Instr.edge01),
        (Stmt.tick 1, Instr.tick), (Stmt.nop, Instr.nop), (Stmt.pend, Instr.pend), (Stmt.reset, Instr.reset)] →
      assemble p st = some [encode p.n i]) ∧
      (m ≤ 255 → ∃ x, assemble p (.read m) = some [x] ∧
        decodeInstant p.n x = [.instr (.read (BitVec.ofNat 8 m))] ∧ (BitVec.ofNat 8 m).toNat = m) ∧
      (255 < m → assemble p (.read m) = none) ∧
      (d ≤ p.n → bits.length = d → ∃ x fin, assemble p (.decode d bits) = some [x] ∧
        decodeInstant p.n x = [.instr (.decode (BitVec.ofNat 8 d) fin)] ∧ (BitVec.ofNat 8 d).toNat = d ∧
        fin.take d = bits ∧ ∀ j, d ≤ j → fin.getD j false = false) ∧
      (p.n < d ∨ bits.length ≠ d → assemble p (.decode d bits) = none)

/-- R70: `send` is one edge for each of its bits in order, the gap's ticks between two consecutive ones and nothing after
the last; its gap is 1 where none is written; `tick k` is k copies of `tick`, and `quiet` is `tick T_TICKS`. -/
def Obligations.SendPresentsItsBitsWithGaps : Prop :=
  ∀ (p : Params) (bits : FrameBits) (g k : Nat) (word : List Char),
    (∃ xs, assemble p (.send bits g) = some xs ∧
      xs.flatMap (decodeInstant p.n) =
        (List.replicate g (Transition.instr .tick)).intercalate (bits.map fun b => [.instr (edgeOf b)])) ∧
      parseOne "send".toList word = (parseBits word).map (fun b => .send b 1) ∧
      (∃ xs, assemble p (.tick k) = some xs ∧
        xs.flatMap (decodeInstant p.n) = List.replicate k (.instr .tick)) ∧
      assemble p .quiet = assemble p (.tick p.tTicks)
end

