-- ==== Sys2Proof/Laws/Decode.lean ====
section
/-! SUPPORT. The fields of a command word, as numbers and of a word put together from its fields. -/

namespace Sys2Proof

theorem opField_toNat (w : CommandWord) : (opField w).toNat = w.toNat / 4096 := by
  have := w.isLt
  simp only [opField, BitVec.extractLsb'_toNat, Nat.shiftRight_eq_div_pow]
  omega

theorem rsvField_toNat (w : CommandWord) : (rsvField w).toNat = w.toNat / 256 % 16 := by
  simp only [rsvField, BitVec.extractLsb'_toNat, Nat.shiftRight_eq_div_pow]

theorem argField_toNat (w : CommandWord) : (argField w).toNat = w.toNat % 256 := by
  simp only [argField, BitVec.extractLsb'_toNat, Nat.shiftRight_eq_div_pow]
  omega

theorem commandWord_toNat (op rsv : BitVec 4) (arg : BitCount) :
    (commandWord op rsv arg).toNat = op.toNat * 4096 + rsv.toNat * 256 + arg.toNat := by
  have h1 := (rsv ++ arg).isLt
  have h2 := arg.isLt
  rw [commandWord, BitVec.toNat_append, ← Nat.shiftLeft_add_eq_or_of_lt (by omega), BitVec.toNat_append,
    ← Nat.shiftLeft_add_eq_or_of_lt (by omega), Nat.shiftLeft_eq, Nat.shiftLeft_eq]
  omega

@[simp] theorem opField_commandWord (op rsv : BitVec 4) (arg : BitCount) : opField (commandWord op rsv arg) = op := by
  have h1 := rsv.isLt
  have h2 := arg.isLt
  apply BitVec.eq_of_toNat_eq
  rw [opField_toNat, commandWord_toNat]; omega

@[simp] theorem rsvField_commandWord (op rsv : BitVec 4) (arg : BitCount) :
    rsvField (commandWord op rsv arg) = rsv := by
  have h1 := rsv.isLt
  have h2 := arg.isLt
  apply BitVec.eq_of_toNat_eq
  rw [rsvField_toNat, commandWord_toNat]; omega

@[simp] theorem argField_commandWord (op rsv : BitVec 4) (arg : BitCount) :
    argField (commandWord op rsv arg) = arg := by
  have h2 := arg.isLt
  apply BitVec.eq_of_toNat_eq
  rw [argField_toNat, commandWord_toNat]; omega

/-- The bus has N wires. -/
@[simp] theorem finBus_length (n : Nat) (fin : FrameBits) : (finBus n fin).length = n := by simp [finBus]

/-- A bus of N wires is read as it is. -/
theorem finBus_of_length {n : Nat} {fin : FrameBits} (h : fin.length = n) : finBus n fin = fin := by
  apply List.ext_getElem
  · simp [h]
  · intro i h1 h2; simp [finBus, h2]

end Sys2Proof
end

