-- ==== Sys2Proof/Laws/State.lean ====
section
/-! SUPPORT. One lemma per field of the state per field write. -/

namespace Sys2Proof.Machine

section
variable (v : Nat) (s : State)

@[simp] theorem State.setLen_params : (s.setLen v).params = s.params := rfl
@[simp] theorem State.setLen_len : (s.setLen v).len = v := rfl
@[simp] theorem State.setLen_buf : (s.setLen v).buf = s.buf := rfl
@[simp] theorem State.setLen_last : (s.setLen v).last = s.last := rfl
@[simp] theorem State.setLen_now : (s.setLen v).now = s.now := rfl
@[simp] theorem State.setLen_rsp : (s.setLen v).rsp = s.rsp := rfl
@[simp] theorem State.setLen_inputs : (s.setLen v).inputs = s.inputs := rfl
@[simp] theorem State.setLen_due : (s.setLen v).due = s.due := rfl
@[simp] theorem State.setLen_freeIx : (s.setLen v).freeIx = s.freeIx := rfl

end

section
variable (v : FrameBits) (s : State)

@[simp] theorem State.setBuf_params : (s.setBuf v).params = s.params := rfl
@[simp] theorem State.setBuf_len : (s.setBuf v).len = s.len := rfl
@[simp] theorem State.setBuf_buf : (s.setBuf v).buf = v := rfl
@[simp] theorem State.setBuf_last : (s.setBuf v).last = s.last := rfl
@[simp] theorem State.setBuf_now : (s.setBuf v).now = s.now := rfl
@[simp] theorem State.setBuf_rsp : (s.setBuf v).rsp = s.rsp := rfl
@[simp] theorem State.setBuf_inputs : (s.setBuf v).inputs = s.inputs := rfl
@[simp] theorem State.setBuf_due : (s.setBuf v).due = s.due := rfl
@[simp] theorem State.setBuf_freeIx : (s.setBuf v).freeIx = s.freeIx := rfl

end

section
variable (v : Nat) (s : State)

@[simp] theorem State.setLast_params : (s.setLast v).params = s.params := rfl
@[simp] theorem State.setLast_len : (s.setLast v).len = s.len := rfl
@[simp] theorem State.setLast_buf : (s.setLast v).buf = s.buf := rfl
@[simp] theorem State.setLast_last : (s.setLast v).last = v := rfl
@[simp] theorem State.setLast_now : (s.setLast v).now = s.now := rfl
@[simp] theorem State.setLast_rsp : (s.setLast v).rsp = s.rsp := rfl
@[simp] theorem State.setLast_inputs : (s.setLast v).inputs = s.inputs := rfl
@[simp] theorem State.setLast_due : (s.setLast v).due = s.due := rfl
@[simp] theorem State.setLast_freeIx : (s.setLast v).freeIx = s.freeIx := rfl

end

section
variable (v : Nat) (s : State)

@[simp] theorem State.setNow_params : (s.setNow v).params = s.params := rfl
@[simp] theorem State.setNow_len : (s.setNow v).len = s.len := rfl
@[simp] theorem State.setNow_buf : (s.setNow v).buf = s.buf := rfl
@[simp] theorem State.setNow_last : (s.setNow v).last = s.last := rfl
@[simp] theorem State.setNow_now : (s.setNow v).now = v := rfl
@[simp] theorem State.setNow_rsp : (s.setNow v).rsp = s.rsp := rfl
@[simp] theorem State.setNow_inputs : (s.setNow v).inputs = s.inputs := rfl
@[simp] theorem State.setNow_due : (s.setNow v).due = s.due := rfl
@[simp] theorem State.setNow_freeIx : (s.setNow v).freeIx = s.freeIx := rfl

end

section
variable (v : Option Response) (s : State)

@[simp] theorem State.setRsp_params : (s.setRsp v).params = s.params := rfl
@[simp] theorem State.setRsp_len : (s.setRsp v).len = s.len := rfl
@[simp] theorem State.setRsp_buf : (s.setRsp v).buf = s.buf := rfl
@[simp] theorem State.setRsp_last : (s.setRsp v).last = s.last := rfl
@[simp] theorem State.setRsp_now : (s.setRsp v).now = s.now := rfl
@[simp] theorem State.setRsp_rsp : (s.setRsp v).rsp = v := rfl
@[simp] theorem State.setRsp_inputs : (s.setRsp v).inputs = s.inputs := rfl
@[simp] theorem State.setRsp_due : (s.setRsp v).due = s.due := rfl
@[simp] theorem State.setRsp_freeIx : (s.setRsp v).freeIx = s.freeIx := rfl

end

section
variable (v : List Instant) (s : State)

@[simp] theorem State.setInputs_params : (s.setInputs v).params = s.params := rfl
@[simp] theorem State.setInputs_len : (s.setInputs v).len = s.len := rfl
@[simp] theorem State.setInputs_buf : (s.setInputs v).buf = s.buf := rfl
@[simp] theorem State.setInputs_last : (s.setInputs v).last = s.last := rfl
@[simp] theorem State.setInputs_now : (s.setInputs v).now = s.now := rfl
@[simp] theorem State.setInputs_rsp : (s.setInputs v).rsp = s.rsp := rfl
@[simp] theorem State.setInputs_inputs : (s.setInputs v).inputs = v := rfl
@[simp] theorem State.setInputs_due : (s.setInputs v).due = s.due := rfl
@[simp] theorem State.setInputs_freeIx : (s.setInputs v).freeIx = s.freeIx := rfl

end

section
variable (v : List Transition) (s : State)

@[simp] theorem State.setDue_params : (s.setDue v).params = s.params := rfl
@[simp] theorem State.setDue_len : (s.setDue v).len = s.len := rfl
@[simp] theorem State.setDue_buf : (s.setDue v).buf = s.buf := rfl
@[simp] theorem State.setDue_last : (s.setDue v).last = s.last := rfl
@[simp] theorem State.setDue_now : (s.setDue v).now = s.now := rfl
@[simp] theorem State.setDue_rsp : (s.setDue v).rsp = s.rsp := rfl
@[simp] theorem State.setDue_inputs : (s.setDue v).inputs = s.inputs := rfl
@[simp] theorem State.setDue_due : (s.setDue v).due = v := rfl
@[simp] theorem State.setDue_freeIx : (s.setDue v).freeIx = s.freeIx := rfl

end

section
variable (v : Nat) (s : State)

@[simp] theorem State.setFreeIx_params : (s.setFreeIx v).params = s.params := rfl
@[simp] theorem State.setFreeIx_len : (s.setFreeIx v).len = s.len := rfl
@[simp] theorem State.setFreeIx_buf : (s.setFreeIx v).buf = s.buf := rfl
@[simp] theorem State.setFreeIx_last : (s.setFreeIx v).last = s.last := rfl
@[simp] theorem State.setFreeIx_now : (s.setFreeIx v).now = s.now := rfl
@[simp] theorem State.setFreeIx_rsp : (s.setFreeIx v).rsp = s.rsp := rfl
@[simp] theorem State.setFreeIx_inputs : (s.setFreeIx v).inputs = s.inputs := rfl
@[simp] theorem State.setFreeIx_due : (s.setFreeIx v).due = s.due := rfl
@[simp] theorem State.setFreeIx_freeIx : (s.setFreeIx v).freeIx = v := rfl

end

end Sys2Proof.Machine
end

