-- ==== Sys2Proof/Laws/Flags.lean ====
section
/-! SUPPORT. What the pending count, READY and the phase are, for the other proofs to cite. -/

namespace Sys2Proof.Machine

variable (s : State)

/-- No frame is pending in an empty buffer. -/
theorem pending_of_empty (h : s.len = 0) : s.pending = 0 := by simp [State.pending, h]

/-- A frame is pending exactly when bits are held and the quiet period has passed. -/
theorem pending_pos_iff : 0 < s.pending ↔ 0 < s.len ∧ s.params.tTicks ≤ s.elapsed := by
  unfold State.pending; split
  · omega
  · split <;> omega

/-- A pending frame is the whole buffer. -/
theorem pending_eq_len (h : 0 < s.pending) : s.pending = s.len := by
  obtain ⟨h1, h2⟩ := (pending_pos_iff s).1 h
  simp [State.pending, h2]; omega

/-- READY as a proposition. -/
theorem ready_iff : s.ready = true ↔ 0 < s.len ∧ s.params.tTicks ≤ s.elapsed := by
  rw [State.ready, decide_eq_true_iff, pending_pos_iff]

end Sys2Proof.Machine
end

