-- ==== Sys2Proof/Laws/Ops.lean ====
section
/-! SUPPORT. What the shared operations do: the buffer, the append, both appends of an EDGE01, power-on reset, and taking
a transition that is due. -/

namespace Sys2Proof.Machine

section
variable (b : Bool) (s : State)

/-- A cell reads what was written to it. -/
theorem bufRead_bufWrite_same {i : Nat} (h : i < s.buf.length) : (s.bufWrite i b).bufRead i = b := by
  simp [State.bufRead, State.bufWrite, h]

/-- A write leaves every other cell alone. -/
theorem bufRead_bufWrite_ne {i j : Nat} (h : i ≠ j) : (s.bufWrite i b).bufRead j = s.bufRead j := by
  simp [State.bufRead, State.bufWrite, List.getElem?_set_ne h]

/-- A write keeps the number of cells. -/
theorem bufWrite_buf_length (i : Nat) : (s.bufWrite i b).buf.length = s.buf.length := by
  simp [State.bufWrite]

/-- The append of a bit that finds room (R73). -/
theorem appendBit_of_room (h : s.len < s.params.n) :
    s.appendBit b = { s with buf := s.buf.set s.len b, len := s.len + 1, last := s.now } := by
  simp only [State.appendBit, if_pos h]; rfl

/-- The append of a bit that is dropped (R73, R77). -/
theorem appendBit_of_full (h : ¬ s.len < s.params.n) : s.appendBit b = { s with last := s.now } := by
  simp only [State.appendBit, if_neg h]; rfl

@[simp] theorem appendBit_params : (s.appendBit b).params = s.params := by
  unfold State.appendBit; split <;> rfl

@[simp] theorem appendBit_last : (s.appendBit b).last = s.now := by
  unfold State.appendBit; split <;> rfl

@[simp] theorem appendBit_now : (s.appendBit b).now = s.now := by
  unfold State.appendBit; split <;> rfl

@[simp] theorem appendBit_rsp : (s.appendBit b).rsp = s.rsp := by
  unfold State.appendBit; split <;> rfl

@[simp] theorem appendBit_inputs : (s.appendBit b).inputs = s.inputs := by
  unfold State.appendBit; split <;> rfl

@[simp] theorem appendBit_due : (s.appendBit b).due = s.due := by
  unfold State.appendBit; split <;> rfl

@[simp] theorem appendBit_freeIx : (s.appendBit b).freeIx = s.freeIx := by
  unfold State.appendBit; split <;> rfl

/-- `LEN` after an append. -/
theorem appendBit_len : (s.appendBit b).len = if s.len < s.params.n then s.len + 1 else s.len := by
  unfold State.appendBit; split <;> rfl

/-- The buffer after an append. -/
theorem appendBit_buf :
    (s.appendBit b).buf = if s.len < s.params.n then s.buf.set s.len b else s.buf := by
  unfold State.appendBit; split <;> rfl

/-- An append keeps the number of cells. -/
@[simp] theorem appendBit_buf_length : (s.appendBit b).buf.length = s.buf.length := by
  rw [appendBit_buf]; split <;> simp

/-- An append keeps `LEN ≤ N` (R21). -/
theorem appendBit_len_le (h : s.len ≤ s.params.n) : (s.appendBit b).len ≤ s.params.n := by
  rw [appendBit_len]; split <;> omega

/-- An append writes no cell but the one at `LEN` (R22, R37). -/
theorem appendBit_bufRead_ne {j : Nat} (h : s.len ≠ j) : (s.appendBit b).bufRead j = s.bufRead j := by
  unfold State.bufRead; rw [appendBit_buf]; split
  · simp [List.getElem?_set_ne h]
  · rfl

/-- Which cells an append leaves alone: all but the one at `LEN`, and every cell at or above N. -/
theorem appendBit_bufRead {j : Nat} (h : s.len ≠ j ∨ s.params.n ≤ j) : (s.appendBit b).bufRead j = s.bufRead j := by
  by_cases hr : s.len < s.params.n
  · exact appendBit_bufRead_ne b s (by omega)
  · unfold State.bufRead; rw [appendBit_buf, if_neg hr]

end

section
variable (o : BothEdgeOutcome) (s : State)

@[simp] theorem appendBoth_params : (s.appendBoth o).params = s.params := by cases o <;> simp [State.appendBoth]

@[simp] theorem appendBoth_last : (s.appendBoth o).last = s.now := by cases o <;> simp [State.appendBoth]

@[simp] theorem appendBoth_now : (s.appendBoth o).now = s.now := by cases o <;> simp [State.appendBoth]

@[simp] theorem appendBoth_inputs : (s.appendBoth o).inputs = s.inputs := by cases o <;> simp [State.appendBoth]

@[simp] theorem appendBoth_due : (s.appendBoth o).due = s.due := by cases o <;> simp [State.appendBoth]

@[simp] theorem appendBoth_freeIx : (s.appendBoth o).freeIx = s.freeIx := by cases o <;> simp [State.appendBoth]

/-- Which cells both appends leave alone: all but the two from `LEN` on, and every cell at or above N. -/
theorem appendBoth_bufRead {j : Nat} (h : j < s.len ∨ s.len + 1 < j ∨ s.params.n ≤ j) :
    (s.appendBoth o).bufRead j = s.bufRead j := by
  have two : ∀ b c, ((s.appendBit b).appendBit c).bufRead j = s.bufRead j := by
    intro b c
    rw [appendBit_bufRead, appendBit_bufRead]
    · omega
    · rw [appendBit_len, appendBit_params]; split <;> omega
  cases o
  · exact two _ _
  · exact two _ _
  · exact appendBit_bufRead _ _ (by omega)
  · exact appendBit_bufRead _ _ (by omega)

/-- Whatever the policy, an EDGE01 has one of the four outcomes, and only the free-value counter may also move (R76). -/
theorem appendByPolicy_cases :
    ∃ o, s.appendByPolicy = s.appendBoth o ∨ s.appendByPolicy = (s.appendBoth o).setFreeIx (s.freeIx + 1) := by
  unfold State.appendByPolicy
  cases s.params.bothEdge
  · exact ⟨.order01, .inl rfl⟩
  · exact ⟨.order10, .inl rfl⟩
  · exact ⟨.keep0, .inl rfl⟩
  · exact ⟨.keep1, .inl rfl⟩
  · exact ⟨_, .inr rfl⟩

end

section
variable (s : State)

/-- Power-on reset leaves N cells in the buffer (R34). -/
theorem powerOnReset_bufferWf : s.powerOnReset.buf.length = s.params.n := by
  simp [State.powerOnReset, State.noResponse, freeBuffer]

/-- The choice among `k` transitions is one of them. -/
theorem orderChoice_lt {k : Nat} (h : 0 < k) : s.orderChoice k < k := Nat.mod_lt _ h

/-- Everything taking a due transition can do: nothing was due, the only one was taken, or one of several was taken and
the others stay due (R106). -/
theorem takeDue_cases (ts : List Transition) :
    (ts = [] ∧ State.takeDue ts s = (s.setDue [], none)) ∨
      (∃ t, ts = [t] ∧ State.takeDue ts s = (s.setDue [], some t)) ∨
      (∃ k t, 2 ≤ ts.length ∧ ts[k]? = some t ∧
        State.takeDue ts s = ((s.setDue (ts.eraseIdx k)).setFreeIx (s.freeIx + 1), some t)) := by
  match ts with
  | [] => exact .inl ⟨rfl, rfl⟩
  | [t] => exact .inr (.inl ⟨t, rfl, rfl⟩)
  | t :: u :: ts =>
    have h : s.orderChoice (ts.length + 2) < (t :: u :: ts).length := orderChoice_lt s (by omega)
    refine .inr (.inr ⟨s.orderChoice (ts.length + 2), _, by simp, List.getElem?_eq_getElem h, ?_⟩)
    rw [State.takeDue, List.getElem?_eq_getElem h]

end

end Sys2Proof.Machine
end

