-- ==== Sys2Proof/Laws/PerInstr.lean ====
section
/-! SUPPORT. A statement about every instruction, one lemma a constructor: its encoding carries the fixed bits of its row
of the opcode map. -/

namespace Sys2Proof.Laws.EncodesInItsRow

/-- The command word (R57) or event word (R53) of `i` carries the fixed bits of its row. -/
def Statement (i : Instr) : Prop :=
  ∀ n, (∀ mt mk, commandRow i = some (mt, mk) → ∃ t, (encode n i).command = some t ∧ t.word &&& mk = mt) ∧
    (∀ mt mk, eventRow i = some (mt, mk) → (encode n i).event &&& mk = mt)

/-- The operand of READ leaves the high byte of its word alone. -/
theorem read_high_byte : ∀ m : BitCount, commandWord 2 0 m &&& 0xFF00 = 0x2000 := by decide

/-- The operand of DECODE leaves the high byte of its word alone. -/
theorem decode_high_byte : ∀ d : BitCount, commandWord 4 0 d &&& 0xFF00 = 0x4000 := by decide

theorem command {i : Instr} {op : BitVec 4} {arg : BitCount} {mk : CommandWord} {fin : Nat → FrameBits}
    (he : ∀ n, encode n i = commandInstant (commandWord op 0 arg) (fin n))
    (hr : commandRow i = some (commandWord op 0 0, mk)) (hv : eventRow i = none)
    (hm : commandWord op 0 arg &&& mk = commandWord op 0 0) : Statement i := by
  intro n
  refine ⟨fun mt mk' h => ?_, fun mt mk' h => by simp [hv] at h⟩
  rw [hr] at h
  cases h
  exact ⟨_, by rw [he]; rfl, hm⟩

theorem nop : Statement .nop :=
  command (op := 0) (arg := 0) (fin := fun n => List.replicate n false) (fun _ => rfl) rfl rfl (by decide)

theorem pend : Statement .pend :=
  command (op := 1) (arg := 0) (fin := fun n => List.replicate n false) (fun _ => rfl) rfl rfl (by decide)

theorem read (m : BitCount) : Statement (.read m) :=
  command (op := 2) (arg := m) (fin := fun n => List.replicate n false) (fun _ => rfl) rfl rfl (read_high_byte _)

theorem reset : Statement .reset :=
  command (op := 3) (arg := 0) (fin := fun n => List.replicate n false) (fun _ => rfl) rfl rfl (by decide)

theorem decode (d : BitCount) (fin : FrameBits) : Statement (.decode d fin) :=
  command (op := 4) (arg := d) (fin := fun _ => fin) (fun _ => rfl) rfl rfl (decode_high_byte _)

theorem event {i : Instr} {e mt mk : EventWord} (he : ∀ n, encode n i = eventInstant e) (hc : commandRow i = none)
    (hr : eventRow i = some (mt, mk)) (hm : e &&& mk = mt) : Statement i := by
  intro n
  refine ⟨fun mt' mk' h => by simp [hc] at h, fun mt' mk' h => ?_⟩
  rw [hr] at h
  cases h
  rw [he]; exact hm

theorem edge0 : Statement .edge0 := event (fun _ => rfl) rfl rfl (by decide)

theorem edge1 : Statement .edge1 := event (fun _ => rfl) rfl rfl (by decide)

theorem edge01 : Statement .edge01 := event (fun _ => rfl) rfl rfl (by decide)

theorem tick : Statement .tick := event (fun _ => rfl) rfl rfl (by decide)

end Sys2Proof.Laws.EncodesInItsRow
end

