-- ==== Sys2Proof/Laws/Step.lean ====
section
/-! SUPPORT. What READ answers in its two cases, what taking the next transition does, everything one step can do, and a
run of one more step. -/

namespace Sys2Proof.Machine

section
variable {s : State}

/-- READ with no frame pending (R89). -/
theorem exec_read_empty (m : BitCount) (h : s.pending = 0) : exec (.read m) s = .next s.respondOk := if_pos h

/-- READ with a frame pending (R89). -/
theorem exec_read_pending (m : BitCount) (h : 0 < s.pending) :
    exec (.read m) s = .next (s.clearLen.respond (frameResponse (maxBits m) s)) := if_neg (by omega)

/-- A transition still due is taken before the ports are sampled again. -/
theorem nextTransition_of_due {ts : List Transition} (h : s.due = ts) (hne : ts ≠ []) :
    s.nextTransition = State.takeDue ts s := by
  unfold State.nextTransition; rw [h]
  cases ts with
  | nil => exact absurd rfl hne
  | cons t ts => rfl

/-- With nothing due, the next sample of the ports is decoded. -/
theorem nextTransition_of_inputs {x : Instant} {rest : List Instant} (hd : s.due = []) (hi : s.inputs = x :: rest) :
    s.nextTransition = State.takeDue (decodeInstant s.params.n x) (s.setInputs rest) := by
  unfold State.nextTransition; rw [hd, hi]

/-- With nothing due and nothing presented there is no transition. -/
theorem nextTransition_of_idle (hd : s.due = []) (hi : s.inputs = []) : s.nextTransition = (s, none) := by
  unfold State.nextTransition; rw [hd, hi]

/-- A step with legal parameters. -/
theorem step_of_legal (h : s.params.legal = true) : step s = performNext s.nextTransition := if_pos h

/-- What taking a due transition leaves alone, and where what it takes and what it leaves due come from. -/
theorem takeDue_frame (ts : List Transition) (s : State) :
    (State.takeDue ts s).1.params = s.params ∧ (State.takeDue ts s).1.len = s.len ∧
      (State.takeDue ts s).1.buf = s.buf ∧ (State.takeDue ts s).1.last = s.last ∧
      (State.takeDue ts s).1.now = s.now ∧ (State.takeDue ts s).1.rsp = s.rsp ∧
      (∀ x ∈ (State.takeDue ts s).1.due, x ∈ ts) ∧ ∀ x, (State.takeDue ts s).2 = some x → x ∈ ts := by
  obtain ⟨rfl, h⟩ | ⟨t, rfl, h⟩ | ⟨k, t, -, hk, h⟩ := takeDue_cases s ts
  · rw [h]; simp
  · rw [h]; simp
  · rw [h]
    refine ⟨rfl, rfl, rfl, rfl, rfl, rfl, fun x hx => List.mem_of_mem_eraseIdx hx, fun x hx => ?_⟩
    cases hx; exact List.mem_of_getElem? hk

/-- What taking the next transition leaves alone: every cell of the spec's state and the response port. What it takes and
what it leaves due was due before, or is decoded from a sample of the ports. -/
theorem nextTransition_frame (s : State) :
    s.nextTransition.1.params = s.params ∧ s.nextTransition.1.len = s.len ∧ s.nextTransition.1.buf = s.buf ∧
      s.nextTransition.1.last = s.last ∧ s.nextTransition.1.now = s.now ∧ s.nextTransition.1.rsp = s.rsp ∧
      (∀ x ∈ s.nextTransition.1.due, x ∈ s.due ∨ ∃ y, x ∈ decodeInstant s.params.n y) ∧
      ∀ x, s.nextTransition.2 = some x → x ∈ s.due ∨ ∃ y, x ∈ decodeInstant s.params.n y := by
  cases hd : s.due with
  | nil =>
    cases hi : s.inputs with
    | nil => rw [nextTransition_of_idle hd hi]; simp [hd]
    | cons y rest =>
      rw [nextTransition_of_inputs hd hi]
      obtain ⟨h1, h2, h3, h4, h5, h6, h7, h8⟩ := takeDue_frame (decodeInstant s.params.n y) (s.setInputs rest)
      exact ⟨h1, h2, h3, h4, h5, h6, fun x hx => .inr ⟨y, h7 x hx⟩, fun x hx => .inr ⟨y, h8 x hx⟩⟩
  | cons t ts =>
    rw [nextTransition_of_due hd (by simp)]
    obtain ⟨h1, h2, h3, h4, h5, h6, h7, h8⟩ := takeDue_frame (t :: ts) s
    exact ⟨h1, h2, h3, h4, h5, h6, fun x hx => .inl (h7 x hx), fun x hx => .inl (h8 x hx)⟩

/-- Everything one step that goes on can do: wait, or perform the transition that was taken. -/
theorem step_cases {t : State} (h : step s = .next t) :
    s.params.legal = true ∧
      (s.nextTransition.2 = none ∧ t = s.nextTransition.1.noResponse ∨
        ∃ x, s.nextTransition.2 = some x ∧ perform x s.nextTransition.1 = .next t) := by
  unfold step at h
  split at h
  · refine ⟨‹_›, ?_⟩
    unfold performNext at h
    split at h
    · cases h; exact .inl ⟨‹_›, rfl⟩
    · exact .inr ⟨_, ‹_›, h⟩
  · cases h

/-- What step answers decides the rest of a run. -/
theorem run_succ (k : Nat) (s : State) :
    (Host.Core.run core (k + 1) s : Host.Outcome State Fault Refusal) =
      match step s with
      | .next t => Host.Core.run core k t
      | .fault r => .fault r
      | .refused r => .refused r := by
  have unfoldRun : ∀ (M : Host.Core) (u : M.State), M.run (k + 1) u =
      match M.step u with
      | .next v => M.run k v
      | .fault r => .fault r
      | .refused r => .refused r := fun _ _ => rfl
  have hr := unfoldRun core s
  cases hs : step s with
  | next t => rw [show core.step s = .next t from hs] at hr; exact hr
  | fault r => rw [show core.step s = .fault r from hs] at hr; exact hr
  | refused r => rw [show core.step s = .refused r from hs] at hr; exact hr

end

end Sys2Proof.Machine
end

