-- ==== Sys2Proof/Tests/Slice0.lean ====
section
/-! SUPPORT. Tests. Expected results are those of spec/95_test_vectors.md (named by their numbers A1 to X18, E1 to E16, W1 to
W6) or worked out by hand from the rule named. The witnesses at the end meet the hypotheses of the statements. -/

namespace Sys2Proof.Machine.Tests

open Sys2Proof Sys2Proof.Machine

/-! ### Helpers -/

/-- The `n` low bits of a number, most significant first, so that a literal reads as the spec writes a frame. -/
def frame (n w : Nat) : FrameBits := (List.range n).map fun i => w.testBit (n - 1 - i)

/-- Parameters with a given capacity, threshold and policy. -/
def params (n t : Nat) (policy : BothEdgePolicy) : Params :=
  { n := n, tTicks := t, tickPeriod := 1, bothEdge := policy, pollInterval := 5000 }

/-- A state with `bits` in the buffer. -/
def holding (p : Params) (bits : FrameBits) (last now : Nat) : State :=
  { State.reset with
    params := p, len := bits.length, buf := bits ++ List.replicate (p.n - bits.length) false, last := last, now := now }

/-- The defaults of R7. -/
def defaults : Params := params 32 3000 .any

/-- A small instance: 4 bits, 3 ticks, ORDER_01. -/
def small : Params := params 4 3 .order01

/-- `LEN`, the bits held, `LAST` and `NOW` of the next state. -/
def cells : Host.Outcome State Fault Refusal → Option (Nat × FrameBits × Nat × Nat)
  | .next t => some (t.len, t.buf.take t.len, t.last, t.now)
  | .fault _ => none
  | .refused _ => none

/-- The response of the next state. -/
def response : Host.Outcome State Fault Refusal → Option Response
  | .next t => t.rsp
  | .fault _ => none
  | .refused _ => none

/-- READY of the next state. -/
def readyAfter : Host.Outcome State Fault Refusal → Option Bool
  | .next t => some t.ready
  | .fault _ => none
  | .refused _ => none

/-- `{OK}` on 32 wires. -/
def ok32 : Response := ⟨.ok, 0, List.replicate 32 false, 0, 0, 0, false⟩

/-- A bus of 32 wires with the bits on its first wires. -/
def bus32 (bits : FrameBits) : FrameBits := bits ++ List.replicate (32 - bits.length) false

/-! ### Well-formedness: one ill-formed term for each check -/

theorem test_decode_over_capacity_ill_formed : (Instr.decode 33 (bus32 [])).wellFormed 32 = false := by decide

theorem test_decode_short_bus_ill_formed : (Instr.decode 4 (frame 4 0b1101)).wellFormed 32 = false := by decide

theorem test_transition_ill_formed : (Transition.instr (.decode 33 (bus32 []))).wellFormed 32 = false := by decide

theorem test_instant_short_bus_ill_formed : (commandInstant 0x4004 (frame 4 0b1101)).wellFormed 32 = false := by decide

theorem test_params_out_of_range :
    (params 0 3000 .any).legal = false ∧ (params 256 3000 .any).legal = false ∧ (params 32 0 .any).legal = false ∧
      ({ params 32 3000 .any with tickPeriod := 0 }).legal = false ∧ (params 1 1 .any).legal = true ∧
      (params 255 1 .any).legal = true := by decide

/-- The threshold of the defaults is 3 ms (R133). -/
theorem test_threshold_is_three_ms : Params.default.threshold = 3000 := by
  norm_num [Params.threshold, Params.default]

/-! ### Decoding: words written out from R53 and R57 -/

theorem test_word_nop : decodeTableWord 16 0b0000_0000_00000000 = some .nop := by decide

theorem test_word_pend : decodeTableWord 16 0b0001_0000_00000000 = some .pend := by decide

theorem test_word_read : decodeTableWord 16 0b0010_0000_11111111 = some (.read 255) := by decide

theorem test_word_reset : decodeTableWord 16 0b0011_0000_00000000 = some .reset := by decide

theorem test_word_decode :
    decodeTableWord 16 0b0100_0000_00011010 = some (.decode 26 (List.replicate 32 false)) := by decide

theorem test_word_edge0 : decodeTableWord 8 0b001 = some .edge0 := by decide

theorem test_word_edge1 : decodeTableWord 8 0b010 = some .edge1 := by decide

theorem test_word_edge01 : decodeTableWord 8 0b011 = some .edge01 := by decide

theorem test_word_tick : decodeTableWord 8 0b100 = some .tick := by decide

/-- E2, E4, E7, E9, E12, E14, E15, E16. -/
theorem test_illegal_words :
    [0x0001, 0x10FF, 0x2100, 0x3080, 0x4021, 0x5000, 0xFFFF, 0x0F00].map
        (fun w => decodeCommand 32 ⟨BitVec.ofNat 16 w, bus32 []⟩) =
      [.illegal .operandNotZero, .illegal .operandNotZero, .illegal .reservedBits, .illegal .operandNotZero,
        .illegal .lengthOverCapacity, .illegal .reservedOp, .illegal .reservedBits, .illegal .reservedBits] := by decide

/-- E11 and E13: `d = N` is legal, and legality depends on `N`. -/
theorem test_decode_count_at_capacity :
    decodeCommand 32 ⟨0x4020, bus32 []⟩ = .instr (.decode 32 (bus32 [])) ∧
      decodeCommand 64 ⟨0x4021, bus32 []⟩ = .instr (.decode 33 (List.replicate 64 false)) := by decide

/-- R53: an event word with both parts causes both transitions. -/
theorem test_event_edge_and_tick : decodeEvent 0b101 = [.edge0, .tick] ∧ decodeEvent 0b111 = [.edge01, .tick] := by decide

/-- R117: no event and no command is taken while `RST` is asserted. -/
theorem test_instant_with_rst :
    decodeInstant 32 { rst := true, event := 0b101, command := some ⟨0x1000, bus32 []⟩ } = [.powerOn] := by decide

/-! ### Accumulator -/

/-- A3. -/
theorem test_edge0_appends :
    cells (exec .edge0 (holding defaults (frame 3 0b101) 0 40)) = some (4, frame 4 0b1010, 40, 40) := by decide

/-- A2. -/
theorem test_edge1_appends : cells (exec .edge1 (holding defaults [] 0 0)) = some (1, [true], 0, 0) := by decide

/-- A5 and A6: the bit is dropped, `LAST` is stamped, and the frame is no longer ready. -/
theorem test_edge1_overflows :
    cells (exec .edge1 (holding defaults (frame 32 0x12345678) 0 3000)) = some (32, frame 32 0x12345678, 3000, 3000) ∧
      readyAfter (exec .edge1 (holding defaults (frame 32 0x12345678) 0 3000)) = some false := by decide

/-- A8 and A9. -/
theorem test_edge01_policies :
    cells (exec .edge01 (holding (params 32 3000 .order01) [] 0 7)) = some (2, [false, true], 7, 7) ∧
      cells (exec .edge01 (holding (params 32 3000 .keep1) [] 0 7)) = some (1, [true], 7, 7) := by decide

/-- A10: the second bit is dropped. -/
theorem test_edge01_overflows :
    cells (exec .edge01 (holding (params 4 3 .order10) (frame 3 0b010) 0 5)) = some (4, frame 4 0b0101, 5, 5) := by decide

/-- A12. -/
theorem test_reset_keeps_last :
    cells (exec .reset (holding defaults (frame 12 0xABC) 50 51)) = some (0, [], 50, 51) ∧
      response (exec .reset (holding defaults (frame 12 0xABC) 50 51)) = some ok32 := by decide

/-! ### Detector -/

/-- T2 and T3: the test is `≥`. -/
theorem test_pend_at_the_threshold :
    response (exec .pend (holding defaults (frame 26 0) 100 3099)) = some ok32 ∧
      response (exec .pend (holding defaults (frame 26 0) 100 3100)) = some { ok32 with count := 26 } := by decide

/-- T1: an empty buffer is never pending. -/
theorem test_pend_empty : response (exec .pend (holding defaults [] 0 1000000000)) = some ok32 := by decide

/-- T6. -/
theorem test_tick_raises_ready :
    cells (exec .tick (holding defaults (frame 4 0b1001) 10 3009)) = some (4, frame 4 0b1001, 10, 3010) ∧
      (holding defaults (frame 4 0b1001) 10 3009).ready = false ∧
      readyAfter (exec .tick (holding defaults (frame 4 0b1001) 10 3009)) = some true := by decide

/-- T9. -/
theorem test_nop_changes_nothing :
    cells (exec .nop (holding defaults (frame 4 0b1001) 10 3010)) = some (4, frame 4 0b1001, 10, 3010) ∧
      response (exec .nop (holding defaults (frame 4 0b1001) 10 3010)) = some ok32 := by decide

/-! ### Reader -/

/-- Q3. -/
theorem test_read_drains :
    cells (exec (.read 32) (holding defaults (frame 5 0b11010) 0 3000)) = some (0, [], 0, 3000) ∧
      response (exec (.read 32) (holding defaults (frame 5 0b11010) 0 3000)) =
        some { ok32 with count := 5, bits := bus32 (frame 5 0b11010) } := by decide

/-- Q4 and Q2: a truncated READ drains too; a READ one tick early finds nothing. -/
theorem test_read_truncates :
    response (exec (.read 3) (holding defaults (frame 5 0b11010) 0 3000)) =
        some { ok32 with count := 5, bits := bus32 (frame 3 0b110) } ∧
      cells (exec (.read 32) (holding defaults (frame 5 0b11010) 0 2999)) = some (5, frame 5 0b11010, 0, 2999) := by decide

/-! ### Extractor -/

/-- X12. -/
theorem test_decode_26 :
    response (exec (.decode 26 (bus32 (frame 26 0b11010010100010010001101000))) State.reset) =
      some { ok32 with raw := 0x34A2468, fac := 0xA5, card := 0x1234, len26 := true } := by decide

/-- X8 and X4: short frames. -/
theorem test_decode_short :
    extract (frame 24 0b011111111111111111111111) = ⟨0x7FFFFF, 255, 32767⟩ ∧ extract (frame 5 0b11010) = ⟨26, 10, 0⟩ := by
  decide

/-! ### Steps and the assembler -/

/-- Q3 through a step: `withFetchWord` runs its word next. -/
theorem test_step_runs_the_word :
    response (step ((holding defaults (frame 5 0b11010) 0 3000).withFetchWord 16 0x2020)) =
      some { ok32 with count := 5, bits := bus32 (frame 5 0b11010) } := by decide

/-- The example after E16: an illegal word answers ILLEGAL and the frame is still ready. -/
theorem test_step_illegal_word :
    response (step ((holding defaults (frame 5 0b11010) 0 3000).withFetchWord 16 0x5000)) =
        some { ok32 with status := .illegal } ∧
      readyAfter (step ((holding defaults (frame 5 0b11010) 0 3000).withFetchWord 16 0x5000)) = some true := by decide

/-- The text of R69 and R70, comment included. -/
theorem test_parse_lines :
    parseProgram ["send \"110\", 10  ; edges".toList, "".toList, "decode 0x4, \"1101\"".toList, "read 0b1000".toList,
        "quiet".toList] =
      some [.send (frame 3 0b110) 10, .decode 4 (frame 4 0b1101), .read 8, .quiet] := by decide

/-- R70: `send "10", 2`. -/
theorem test_send :
    assemble defaults (.send (frame 2 0b10) 2) =
      some [eventInstant 0b010, eventInstant 0b100, eventInstant 0b100, eventInstant 0b001] := by decide

/-- The operand ranges of R69. -/
theorem test_assembler_rejects :
    assemble defaults (.read 256) = none ∧ assemble defaults (.decode 33 (frame 33 0)) = none ∧
      assemble defaults (.decode 4 (frame 3 0)) = none ∧ parseLine "pend 1".toList = none := by decide

/-! ### Witnesses: states and operands that meet the hypotheses of each statement that has some -/

/-- Nothing held. -/
def empty : State := holding small [] 5 5

/-- Three of four cells used, the quiet period one tick short. -/
def accumulating : State := holding small (frame 3 0b101) 2 4

/-- Two bits held, the quiet period just over. -/
def complete : State := holding small (frame 2 0b10) 2 5

/-- Every cell used, the quiet period just over. -/
def full : State := holding small (frame 4 0b1011) 2 5

/-- The states of the witnesses are states of the invariant, in each phase. -/
theorem witness_states :
    empty.Inv ∧ accumulating.Inv ∧ complete.Inv ∧ full.Inv ∧ empty.phase = .idle ∧
      accumulating.phase = .accumulating ∧ complete.phase = .ready ∧ full.phase = .ready := by decide

theorem witness_WordsFitTheirOpcodeRows :
    decodeCommand 4 ⟨0x4004, frame 4 0b1101⟩ = .instr (.decode 4 (frame 4 0b1101)) ∧
      eventRow .edge01 = some (0b011, 0b011) := by decide

theorem witness_EncodeThenDecodeGivesBackTheInstruction :
    ∀ i ∈ [Instr.nop, .pend, .read 0, .read 255, .reset, .decode 0 (frame 4 0b1111), .decode 4 (frame 4 0b1011), .edge0,
      .edge1, .edge01, .tick], i.wellFormed 4 = true := by decide

theorem witness_DecodeThenEncodeGivesBackTheWord :
    decodeCommand 4 ⟨0x4002, frame 2 0b11⟩ = .instr (.decode 2 (frame 4 0b1100)) ∧
      decodeCommand 4 ⟨0x20FF, frame 2 0b11⟩ = .instr (.read 255) := by decide

theorem witness_DecodedTransitionsAreWellFormed :
    decodeInstant 4 { rst := false, event := 0b110, command := some ⟨0x5000, []⟩ } =
      [.instr .edge1, .instr .tick, .illegal .reservedOp] := by decide

theorem witness_NopAnswersOkAndChangesNothing : ∃ t, exec .nop complete = .next t ∧ t.ready = true := ⟨_, rfl, rfl⟩

theorem witness_PendAnswersThePendingCount :
    complete.Inv ∧ 2 = (if complete.len = 0 then 0
      else if complete.now - complete.last ≥ complete.params.tTicks then complete.len else 0) ∧
      accumulating.Inv ∧ 0 = (if accumulating.len = 0 then 0
        else if accumulating.now - accumulating.last ≥ accumulating.params.tTicks then accumulating.len else 0) ∧
      ∃ t, exec .pend complete = .next t := ⟨by decide, by decide, by decide, by decide, _, rfl⟩

theorem witness_TickAdvancesNowByOne :
    accumulating.Inv ∧ accumulating.ready = false ∧
      ∃ t, exec .tick accumulating = .next t ∧ t.ready = true ∧ 0 < accumulating.len ∧ t.now - t.last = 3 :=
  ⟨by decide, by decide, _, rfl, by decide, by decide, by decide⟩

theorem witness_EdgeAppendsItsBitOrDropsIt :
    (Instr.edge1, true, 2) ∈ [(Instr.edge0, false, 1), (Instr.edge1, true, 2)] ∧
      accumulating.len < accumulating.params.n ∧ ¬ full.len < full.params.n := by decide

theorem witness_BothEdgesFollowThePolicy :
    (∀ b : BothEdgePolicy, ({ empty with params := params 4 3 b }).params.bothEdge = b) ∧
      full.params.n ≤ full.len ∧ accumulating.bufferWf ∧ accumulating.len ≤ accumulating.params.n :=
  ⟨fun _ => rfl, by decide, by decide, by decide⟩

theorem witness_ReadDrainsACompleteFrameOrNothing :
    (0 < complete.len ∧ complete.params.tTicks ≤ complete.now - complete.last) ∧
      ¬ (0 < accumulating.len ∧ accumulating.params.tTicks ≤ accumulating.now - accumulating.last) ∧
      ¬ (0 < empty.len ∧ empty.params.tTicks ≤ empty.now - empty.last) ∧
      ∃ t, exec (.read 1) complete = .next t := ⟨by decide, by decide, by decide, _, rfl⟩

theorem witness_ReadHasNoErrorOutcome : full.Inv := by decide

theorem witness_DecodeAnswersTheFieldsOfItsFrame :
    (4 : BitCount).toNat ≤ full.params.n ∧ (frame 4 0b1101).length = full.params.n ∧
      (⟨13, 5, 0⟩ : Fields) = extract ((List.range 4).map fun i => (frame 4 0b1101).getD i false) ∧
      ∃ t, exec (.decode 4 (frame 4 0b1101)) full = .next t := ⟨by decide, by decide, by decide, _, rfl⟩

theorem witness_DecodeOverCapacityAnswersIllegal : full.params.n < (5 : BitCount).toNat := by decide

theorem witness_IllegalWordAnswersIllegal :
    full.params.legal = true ∧ full.due = [] ∧
      ({ full with inputs := [commandInstant 0x4005 []] }).inputs = commandInstant 0x4005 [] :: [] ∧
      decodeCommand full.params.n ⟨0x4005, []⟩ = .illegal .lengthOverCapacity := by decide

theorem witness_EachCommandSetsOnlyItsResponseFields :
    (∃ t, exec .nop full = .next t) ∧ (∃ t, exec .pend full = .next t) ∧ (∃ t, exec (.read 1) full = .next t) ∧
      (∃ t, exec .reset full = .next t) ∧
      ((4 : BitCount).toNat ≤ full.params.n ∧ ∃ t, exec (.decode 4 (frame 4 0b1101)) full = .next t) ∧
      ∃ t, perform (.illegal .reservedOp) full = .next t :=
  ⟨⟨_, rfl⟩, ⟨_, rfl⟩, ⟨_, rfl⟩, ⟨_, rfl⟩, ⟨by decide, _, rfl⟩, _, rfl⟩

theorem witness_ExtractShiftsInEachBitByItsIndex :
    (1 ≤ (frame 8 0).length ∧ (frame 8 0).length ≤ 8) ∧ (9 ≤ (frame 24 0).length ∧ (frame 24 0).length ≤ 24) := by decide

theorem witness_TwentySixBitFrameIsParityFacilityCardParity :
    (frame 26 0b11010010100010010001101000).length = 26 := by decide

theorem witness_DecodeIgnoresWiresBeyondItsCount :
    (∀ j, j < (2 : BitCount).toNat → (frame 4 0b1011).getD j false = (frame 4 0b1000).getD j false) ∧
      frame 4 0b1011 ≠ frame 4 0b1000 := by decide

theorem witness_DecodingAReadFrameReadsTheDeliveredBits :
    full.Inv ∧ 0 < full.pending ∧ (3 : BitCount).toNat = min full.len (3 : BitCount).toNat := by decide

theorem witness_QueriesChangeOnlyTheResponse :
    (∃ t, exec .nop full = .next t) ∧ (∃ t, exec .pend full = .next t) ∧
      ∃ t, exec (.decode 4 (frame 4 0b1101)) full = .next t := ⟨⟨_, rfl⟩, ⟨_, rfl⟩, _, rfl⟩

theorem witness_ClearingCommandsChangeOnlyLenAndResponse :
    (∃ t, exec .reset accumulating = .next t ∧ t.len = 0) ∧ (∃ t, exec (.read 9) accumulating = .next t ∧ t.len = 3) ∧
      ∃ t, exec (.read 9) full = .next t ∧ t.len = 0 := ⟨⟨_, rfl, rfl⟩, ⟨_, rfl, rfl⟩, _, rfl, rfl⟩

theorem witness_TickChangesOnlyNow : ∃ t, exec .tick full = .next t := ⟨_, rfl⟩

/-- With three of four cells used: a cell below `LEN`, one at N, and one above `LEN + 1`. -/
theorem witness_EdgeLeavesEveryOtherCellAlone :
    isEdge .edge01 = true ∧ (∃ t, exec .edge01 accumulating = .next t) ∧ 2 < accumulating.len ∧
      accumulating.params.n ≤ 4 ∧ accumulating.len + 1 < 5 ∧ Instr.edge0 ≠ .edge01 ∧ accumulating.len < 4 :=
  ⟨by decide, ⟨_, rfl⟩, by decide, by decide, by decide, by decide, by decide⟩

theorem witness_OnlyTheAccessTableWrites :
    (∃ t, perform (.instr .edge0) accumulating = .next t ∧ t.len ≠ accumulating.len ∧ t.last ≠ accumulating.last) ∧
      (∃ t, perform (.instr .edge1) accumulating = .next t ∧ t.buf ≠ accumulating.buf) ∧
      (∃ t, perform (.instr .tick) accumulating = .next t ∧ t.now ≠ accumulating.now) ∧
      ∃ t, perform .powerOn accumulating = .next t ∧ t.freeIx ≠ accumulating.freeIx :=
  ⟨⟨_, rfl, by decide, by decide⟩, ⟨_, rfl, by decide⟩, ⟨_, rfl, by decide⟩, _, rfl, by decide⟩

/-- One state or sample for each clause. -/
theorem witness_StepRunsTheDecodedInstruction :
    full.params.legal = true ∧ full.due = [] ∧ full.inputs = [] ∧
      decodeInstant full.params.n (encode full.params.n .pend) = [.instr .pend] ∧
      ({ full with due := [.instr .tick] }).due = [.instr .tick] ∧
      decodeInstant full.params.n (eventInstant 0b000) = [] ∧
      State.reset.params.n = 32 ∧ State.reset.params.legal = true ∧ decodeTableWord 16 0x20FF = some (.read 255) := by
  decide

theorem witness_StepPerformsSomeTransitionOfTheInstant :
    full.params.legal = true ∧ full.due = [] ∧ 2 ≤ [Transition.instr .edge0, .instr .tick].length ∧
      ({ full with due := [.instr .edge0, .instr .tick] }).due = [.instr .edge0, .instr .tick] ∧
      decodeInstant full.params.n (eventInstant 0b101) = [.instr .edge0, .instr .tick] := by decide

theorem witness_EdgeAndTickRunInOneOfTwoOrders :
    full.params.legal = true ∧ full.due = [] ∧
      ({ full with inputs := [eventInstant 0b111] }).inputs = eventInstant 0b111 :: [] ∧
      decodeEvent 0b101 = [.edge0, .tick] ∧ decodeEvent 0b110 = [.edge1, .tick] ∧ decodeEvent 0b111 = [.edge01, .tick] :=
  by decide

theorem witness_PowerOnResetClearsAndTakesNothing :
    full.params.legal = true ∧ full.due = [] ∧
      ({ rst := true, event := 0b111, command := some ⟨0x2004, frame 4 0⟩ } : Instant).rst = true := by decide

theorem witness_EveryTransitionCompletes : State.reset.params.legal = true := by decide

theorem witness_OnlyIllegalParametersAreRefused :
    step { State.reset with params := params 0 3 .any } = .refused .illegalParameters := rfl

theorem witness_ParametersNeverChange : ∃ t, step State.reset = .next t := ⟨_, rfl⟩

theorem witness_NowChangesOnlyByTick :
    (∃ t, step { full with due := [.instr .tick] } = .next t) ∧
      ({ full with due := [.instr .tick] }).nextTransition.2 = some (.instr .tick) ∧
      (∃ t, step { full with due := [.instr .edge0] } = .next t) ∧
      ({ full with due := [.instr .edge0] }).nextTransition.2 ≠ some .powerOn := ⟨⟨_, rfl⟩, rfl, ⟨_, rfl⟩, by decide⟩

theorem witness_PendingIsZeroOrTheLength :
    full.len ≤ full.params.n ∧ accumulating.now - accumulating.last < accumulating.params.tTicks ∧
      ∃ t, exec .pend full = .next t := ⟨by decide, by decide, _, rfl⟩

theorem witness_PhaseMachineFollowsItsTable :
    (accumulating.Inv ∧ accumulating.now + 1 - accumulating.last = accumulating.params.tTicks ∧
      ∃ t, exec .tick accumulating = .next t ∧ t.phase = .ready) ∧
      (∃ t, exec .edge0 full = .next t ∧ t.phase = .accumulating) ∧
      ∃ t, perform (.illegal .reservedOp) full = .next t := ⟨⟨by decide, by decide, _, rfl, rfl⟩, ⟨_, rfl, rfl⟩, _, rfl⟩

theorem witness_RepeatedCommandsAreIdempotentButForADrain :
    (∃ t, exec .pend full = .next t) ∧ (∃ t, exec .reset full = .next t) ∧ (accumulating.pending = 0 ∧ ∃ t, exec (.read 4) accumulating = .next t) ∧
      (0 < full.pending ∧ ∃ t, exec (.read 4) full = .next t) := ⟨⟨_, rfl⟩, ⟨_, rfl⟩, ⟨rfl, _, rfl⟩, by decide, _, rfl⟩

/-- One tick less than the quiet period, and just as many. -/
theorem witness_FrameIsReadyExactlyAfterTheQuietPeriod :
    empty.Inv ∧ isEdge .edge1 = true ∧ (∃ t, exec .edge1 empty = .next t) ∧
      (∀ j ∈ [Instr.tick, .pend, .tick], passive j = true) ∧ ticksIn [.tick, .pend, .tick] + 1 = empty.params.tTicks ∧
      (∀ j ∈ [Instr.tick, .tick, .nop, .tick], passive j = true) ∧
      ticksIn [.tick, .tick, .nop, .tick] = empty.params.tTicks :=
  ⟨by decide, by decide, ⟨_, rfl⟩, by decide, by decide, by decide, by decide⟩

theorem witness_EdgeOnAReadyFrameMergesIntoIt :
    complete.Inv ∧ complete.phase = .ready ∧ complete.len < complete.params.n ∧ full.Inv ∧ full.phase = .ready ∧
      full.len = full.params.n := by decide

theorem witness_OrderOfOneInstantChangesTheResult :
    complete.Inv ∧ complete.phase = .ready ∧ accumulating.Inv ∧ 0 < accumulating.len ∧
      accumulating.now + 1 - accumulating.last = accumulating.params.tTicks := by decide

theorem witness_EveryStepKeepsTheInvariant : full.Inv ∧ ∃ t, step (full.withFetchWord 8 0b001) = .next t :=
  ⟨by decide, _, rfl⟩

theorem witness_EveryReachableStateIsSoundAndLive : Reachable State.reset := Reachable.start _ (by decide)

theorem witness_BufferHoldsTheFirstBitsDelivered :
    accumulating.Inv ∧ accumulating.params.bothEdge = outcomePolicy .order01 ∧
      (∀ i ∈ [Instr.edge0, .tick, .edge01], passive i = true ∨ isEdge i = true) ∧
      [false, false, true] = [Instr.edge0, .tick, .edge01].flatMap (edgeBits .order01) := by decide

/-- Two bits, one tick less than the quiet period between them and just the quiet period after the second. -/
theorem witness_FrameIsReadExactlyOnce :
    empty.Inv ∧ empty.len = 0 ∧ [(true, [Instr.tick, .tick]), (false, [.tick, .pend, .tick, .tick])] ≠ [] ∧
      [(true, [Instr.tick, .tick]), (false, [.tick, .pend, .tick, .tick])].length ≤ empty.params.n ∧
      [(true, [Instr.tick, .tick]), (false, [.tick, .pend, .tick, .tick])].length ≤ (2 : BitCount).toNat ∧
      (∀ f ∈ [(true, [Instr.tick, .tick]), (false, [.tick, .pend, .tick, .tick])], ∀ i ∈ f.2, passive i = true) ∧
      (∀ f ∈ [(true, [Instr.tick, .tick]), (false, [.tick, .pend, .tick, .tick])].dropLast,
        ticksIn f.2 < empty.params.tTicks) ∧
      ∀ f ∈ [(true, [Instr.tick, .tick]), (false, [.tick, .pend, .tick, .tick])].getLast?,
        empty.params.tTicks ≤ ticksIn f.2 := by decide

theorem witness_ReadBeforeTheQuietPeriodFindsNothing :
    empty.Inv ∧ empty.len = 0 ∧ (∀ f ∈ [(true, [Instr.tick, .tick])], ∀ i ∈ f.2, passive i = true) ∧
      ∀ f ∈ [(true, [Instr.tick, .tick])], ticksIn f.2 < empty.params.tTicks := by decide

/-- Below the threshold, and saturated at it. -/
theorem witness_QuietCounterStandsForLastAndNow :
    accumulating.Inv ∧ quietStandsFor accumulating 2 ∧ full.Inv ∧ quietStandsFor full 3 ∧
      ∃ t, exec .tick accumulating = .next t := ⟨by decide, by decide, by decide, by decide, _, rfl⟩

theorem witness_PowerOnValuesAreNeverObservable :
    (holding small [] 0 0).PoweredOn ∧ ({ holding small [] 7 9 with buf := frame 4 0b1101 }).PoweredOn ∧
      (holding small [] 0 0).params = ({ holding small [] 7 9 with buf := frame 4 0b1101 }).params ∧
      (holding small [] 0 0).inputs = ({ holding small [] 7 9 with buf := frame 4 0b1101 }).inputs ∧
      (holding small [] 0 0).freeIx = ({ holding small [] 7 9 with buf := frame 4 0b1101 }).freeIx := by decide

theorem witness_EncodedInstructionsRunAsTheirMeanings :
    empty.params.legal = true ∧ empty.due = [] ∧
      ∀ i ∈ [Instr.edge1, .tick, .decode 4 (frame 4 0b1101), .read 255], i.wellFormed empty.params.n = true := by decide

/-- The ends of each operand's range, and just beyond. -/
theorem witness_StatementsPresentTheirTransitions :
    small.legal = true ∧ 255 ≤ 255 ∧ 255 < 256 ∧ (4 ≤ small.n ∧ (frame 4 0b1101).length = 4) ∧
      (0 ≤ small.n ∧ (frame 0 0).length = 0) ∧ small.n < 5 ∧ (frame 3 0b110).length ≠ 4 ∧
      (Stmt.tick 1, Instr.tick) ∈ [(Stmt.edge0, Instr.edge0), (Stmt.edge1, Instr.edge1), (Stmt.edge01, Instr.edge01),
        (Stmt.tick 1, Instr.tick), (Stmt.nop, Instr.nop), (Stmt.pend, Instr.pend), (Stmt.reset, Instr.reset)] := by decide

end Sys2Proof.Machine.Tests
end

section
/-! PROOFS. `NOW` over the shared operations, over one instruction, over one transition and over one step (R26). -/

namespace Sys2Proof.Machine

section
variable (s : State)

@[simp] theorem respond_now (r : Response) : (s.respond r).now = s.now := rfl

@[simp] theorem noResponse_now : s.noResponse.now = s.now := rfl

@[simp] theorem respondOk_now : s.respondOk.now = s.now := rfl

@[simp] theorem illegalCommand_now : s.illegalCommand.now = s.now := rfl

@[simp] theorem clearLen_now : s.clearLen.now = s.now := rfl

/-- Whatever the policy, an EDGE01 keeps `NOW`. -/
@[simp] theorem appendByPolicy_now : s.appendByPolicy.now = s.now := by
  obtain ⟨o, h | h⟩ := appendByPolicy_cases s
  · rw [h, appendBoth_now]
  · rw [h, State.setFreeIx_now, appendBoth_now]

end

section
variable {s t : State}

/-- `NOW` after an instruction (R26): TICK adds 1 to it (R82), and every other instruction keeps it. -/
theorem exec_now {i : Instr} (h : exec i s = .next t) : t.now = if i = .tick then s.now + 1 else s.now := by
  cases i with
  | nop => cases h; simp
  | pend => cases h; simp
  | read m =>
    obtain hp | hp := Nat.eq_zero_or_pos s.pending
    · rw [exec_read_empty m hp] at h; cases h; simp
    · rw [exec_read_pending m hp] at h; cases h; simp
  | reset => cases h; simp
  | decode d fin =>
    simp only [exec, execDecode] at h
    split at h
    · cases h; simp
    · cases h; simp
  | edge0 => cases h; simp
  | edge1 => cases h; simp
  | edge01 => cases h; simp
  | tick => cases h; simp

/-- `NOW` after any transition but power-on reset, which leaves it unspecified (R34). -/
theorem perform_now {x : Transition} (hx : x ≠ .powerOn) (h : perform x s = .next t) :
    t.now = if x = .instr .tick then s.now + 1 else s.now := by
  cases x with
  | instr i => simpa using exec_now h
  | illegal why => cases h; simp
  | powerOn => exact absurd rfl hx

/-- Taking the next transition from the ports keeps `NOW`. -/
theorem nextTransition_now (s : State) : s.nextTransition.1.now = s.now := by
  obtain ⟨-, -, -, -, hnow, -⟩ := nextTransition_frame s
  exact hnow

/-- `NOW` after a step that is no power-on reset, waiting steps included. -/
theorem step_now (h : step s = .next t) (hx : s.nextTransition.2 ≠ some .powerOn) :
    t.now = if s.nextTransition.2 = some (.instr .tick) then s.now + 1 else s.now := by
  obtain ⟨-, ⟨hnone, rfl⟩ | ⟨x, hsome, hperform⟩⟩ := step_cases h
  · simp [hnone, nextTransition_now]
  · have hne : x ≠ .powerOn := fun hpo => hx (hpo ▸ hsome)
    simpa [hsome, nextTransition_now] using perform_now hne hperform

end

/-- Settles O41: a step waits, which keeps `NOW`, or performs a transition, whose effect on `NOW` is `perform_now`. -/
theorem nowChangesOnlyByTick : Obligations.NowChangesOnlyByTick := by
  intro s t hstep hx
  have hnow := step_now hstep hx
  refine ⟨hnow, ?_⟩
  rw [hnow]
  split <;> omega

end Sys2Proof.Machine
end

section
/-! PROOFS. Commands given twice (R43): what only responds answers the same again, and a READ drains what it finds. -/

namespace Sys2Proof.Machine

/-- From `s`, with whatever on the response port, `i` answers `r` and changes nothing else. -/
def OnlyResponds (i : Instr) (s : State) (r : Response) : Prop := ∀ q, exec i (s.setRsp q) = .next (s.respond r)

section
variable {s t : State}

/-- The response port is read by nothing, so an instruction that only responds answers the same when given again. -/
theorem OnlyResponds.idempotent {i : Instr} {r : Response} (h : OnlyResponds i s r) (hexec : exec i s = .next t) :
    t = { s with rsp := t.rsp } ∧ exec i t = .next t := by
  have hresponds : exec i s = .next (s.respond r) := h s.rsp
  rw [hresponds] at hexec
  cases hexec
  exact ⟨rfl, h (some r)⟩

theorem pend_onlyResponds (s : State) : OnlyResponds .pend s (pendResponse s) := fun _ => rfl

theorem nop_onlyResponds (s : State) : OnlyResponds .nop s (Response.zero s.params.n .ok) := fun _ => rfl

/-- DECODE answers the fields when its count is in range (R99), and as an illegal word otherwise (log 14). -/
theorem decode_onlyResponds (d : BitCount) (fin : FrameBits) (s : State) : ∃ r, OnlyResponds (.decode d fin) s r := by
  by_cases hd : deliveredCount d ≤ s.params.n
  · exact ⟨decodeResponse s.params.n (deliveredCount d) fin, fun _ => if_pos hd⟩
  · exact ⟨Response.zero s.params.n .illegal, fun _ => if_neg hd⟩

theorem read_onlyResponds_of_empty (m : BitCount) (h : s.pending = 0) :
    OnlyResponds (.read m) s (Response.zero s.params.n .ok) := fun q => exec_read_empty (s := s.setRsp q) m h

/-- A second RESET finds `LEN = 0` already and gives the same response. -/
theorem exec_reset_idempotent (h : exec .reset s = .next t) : exec .reset t = .next t := by
  cases h
  rfl

/-- A READ that finds a frame drains it (R89). -/
theorem exec_read_drains {m : BitCount} (hp : 0 < s.pending) (h : exec (.read m) s = .next t) :
    t.len = 0 ∧ t.params = s.params := by
  rw [exec_read_pending m hp] at h
  cases h
  exact ⟨rfl, rfl⟩

end

/-- Settles O45: PEND, NOP, DECODE and a READ without a frame only respond; after a draining READ the buffer is empty, so
the next READ is one without a frame. -/
theorem repeatedCommandsAreIdempotentButForADrain : Obligations.RepeatedCommandsAreIdempotentButForADrain := by
  intro s t m m'
  refine ⟨fun i hi h => ?_, exec_reset_idempotent, fun h hp => (read_onlyResponds_of_empty m hp).idempotent h,
    fun h hp => ?_⟩
  · obtain rfl | rfl | ⟨d, fin, rfl⟩ := hi
    · exact (pend_onlyResponds s).idempotent h
    · exact (nop_onlyResponds s).idempotent h
    · obtain ⟨r, hr⟩ := decode_onlyResponds d fin s
      exact hr.idempotent h
  · obtain ⟨hlen, hparams⟩ := exec_read_drains hp h
    exact ⟨hlen, t.respondOk, exec_read_empty m' (pending_of_empty t hlen), hlen, Response.zero t.params.n .ok, rfl, rfl,
      by rw [hparams]; rfl⟩

end Sys2Proof.Machine
end

section
/-! PROOFS. The command decoder by the fields of the word (R59), the words it turns away (R60), and the transitions of
an event word (R53). -/

namespace Sys2Proof

section
variable {n : Nat} {t : CommandTxn} {i : Instr}

/-- `RSV` is 0 exactly when the word's third hexadecimal digit is. -/
theorem rsvField_eq_zero_iff (w : CommandWord) : rsvField w = 0 ↔ w.toNat / 256 % 16 = 0 := by
  rw [← rsvField_toNat, BitVec.toNat_eq]; rfl

/-- `ARG` is the word's low byte. -/
theorem argField_eq_ofNat (w : CommandWord) : argField w = BitVec.ofNat 8 (w.toNat % 256) := by
  rw [← argField_toNat, BitVec.ofNat_toNat, BitVec.setWidth_eq]

/-- `ARG` is 0 exactly when the word's low byte is. -/
theorem argField_eq_zero_iff (w : CommandWord) : argField w = 0 ↔ w.toNat % 256 = 0 := by
  rw [← argField_toNat, BitVec.toNat_eq]; rfl

/-- An operation without operand answers its instruction exactly when `ARG` is 0. -/
theorem withoutOperand_eq_instr_iff {arg : BitCount} {j : Instr} :
    withoutOperand arg j = .instr i ↔ arg = 0 ∧ i = j := by
  unfold withoutOperand
  split
  next harg => simp [harg, eq_comm (a := i)]
  next harg => exact iff_of_false (by simp) fun h => harg h.1

/-- An operation without operand is an instruction or an illegal word. -/
theorem withoutOperand_ne_powerOn {arg : BitCount} {j : Instr} : withoutOperand arg j ≠ .powerOn := by
  unfold withoutOperand
  split <;> simp

/-- The command decoder read by its fields (R59): what it takes for an instruction, and for which one. -/
theorem decodeCommand_eq_instr_iff :
    decodeCommand n t = .instr i ↔
      rsvField t.word = 0 ∧
        ((opField t.word).toNat = 0 ∧ argField t.word = 0 ∧ i = .nop ∨
          (opField t.word).toNat = 1 ∧ argField t.word = 0 ∧ i = .pend ∨
          (opField t.word).toNat = 2 ∧ i = .read (argField t.word) ∨
          (opField t.word).toNat = 3 ∧ argField t.word = 0 ∧ i = .reset ∨
          (opField t.word).toNat = 4 ∧ (argField t.word).toNat ≤ n ∧
            i = .decode (argField t.word) (finBus n t.fin)) := by
  unfold decodeCommand
  split
  next hrsv => exact iff_of_false (by simp) fun h => hrsv h.1
  next hrsv =>
    rw [and_iff_right (not_not.mp hrsv)]
    split
    next hop => simp [hop, withoutOperand_eq_instr_iff]
    next hop => simp [hop, withoutOperand_eq_instr_iff]
    next hop => simp [hop, eq_comm]
    next hop => simp [hop, withoutOperand_eq_instr_iff]
    next hop => by_cases harg : (argField t.word).toNat ≤ n <;> simp [hop, harg, eq_comm]
    next h0 h1 h2 h3 h4 => exact iff_of_false (by simp) (by tauto)

/-- No command word is a power-on reset. -/
theorem decodeCommand_ne_powerOn : decodeCommand n t ≠ .powerOn := by
  unfold decodeCommand
  split
  · simp
  · split
    · exact withoutOperand_ne_powerOn
    · exact withoutOperand_ne_powerOn
    · simp
    · exact withoutOperand_ne_powerOn
    · split <;> simp
    · simp

/-- The command decoder is total (R59). -/
theorem decodeCommand_total (n : Nat) (t : CommandTxn) :
    (∃ i, decodeCommand n t = .instr i) ∨ ∃ why, decodeCommand n t = .illegal why := by
  cases h : decodeCommand n t with
  | instr i => exact .inl ⟨i, rfl⟩
  | illegal why => exact .inr ⟨why, rfl⟩
  | powerOn => exact absurd h decodeCommand_ne_powerOn

/-- The illegal words are the ones that are no instruction (R60). -/
theorem decodeCommand_illegal_iff :
    (∃ why, decodeCommand n t = .illegal why) ↔ ¬ ∃ i, decodeCommand n t = .instr i := by
  constructor
  · rintro ⟨why, hwhy⟩ ⟨i, hi⟩
    rw [hwhy] at hi
    cases hi
  · exact (decodeCommand_total n t).resolve_left

end

/-- Settles O1: the decoder by its fields, each of them then as a number. -/
theorem commandDecoderFollowsItsAlgorithm : Obligations.CommandDecoderFollowsItsAlgorithm := by
  intro n t
  refine ⟨fun i => ?_, decodeCommand_total n t⟩
  rw [decodeCommand_eq_instr_iff, rsvField_eq_zero_iff, argField_eq_zero_iff, opField_toNat, argField_toNat,
    argField_eq_ofNat]

/-- Settles O2: a word is illegal when it is none of the instructions of O1, which their numbers tell apart. -/
theorem illegalWordsAreExactlyThese : Obligations.IllegalWordsAreExactlyThese := by
  intro n t
  obtain ⟨hinstr, -⟩ := commandDecoderFollowsItsAlgorithm n t
  rw [decodeCommand_illegal_iff]
  simp only [hinstr, exists_and_left, exists_or, exists_eq, and_true]
  omega

/-- Settles O3: the eight event words, each evaluated. -/
theorem eventWordsCauseTheirTransitions : Obligations.EventWordsCauseTheirTransitions :=
  ⟨rfl, rfl, rfl, rfl, rfl, rfl, rfl, rfl⟩

end Sys2Proof
end

section
/-! PROOFS. What a step does on an illegal command word (R61), and the response fields each command sets (R63). -/

namespace Sys2Proof.Machine

section
variable {s t : State}

/-- A sample with only a command word causes that word's transition alone. -/
@[simp] theorem decodeInstant_commandInstant (n : Nat) (w : CommandWord) (fin : FrameBits) :
    decodeInstant n (commandInstant w fin) = [decodeCommand n ⟨w, fin⟩] := by
  have hnone : decodeEvent 0#3 = [] := rfl
  simp [decodeInstant, commandInstant, hnone]

/-- A step with nothing due, on a sample that causes one transition, performs it. -/
theorem step_of_single {x : Instant} {rest : List Instant} {tr : Transition} (hlegal : s.params.legal = true)
    (hdue : s.due = []) (hinputs : s.inputs = x :: rest) (hx : decodeInstant s.params.n x = [tr]) :
    step s = perform tr (s.setInputs rest) := by
  have hs : (s.setInputs rest).setDue [] = s.setInputs rest := by
    rw [← hdue]; rfl
  rw [step_of_legal hlegal, nextTransition_of_inputs hdue hinputs, hx, State.takeDue, hs]
  rfl

/-- DECODE of a count the capacity holds (R99). -/
theorem exec_decode_of_le {d : BitCount} (fin : FrameBits) (h : d.toNat ≤ s.params.n) :
    exec (.decode d fin) s = .next (s.respond (decodeResponse s.params.n d.toNat fin)) := if_pos h

/-- The bus of delivered bits has N wires (R65). -/
@[simp] theorem deliveredBits_length (d : Nat) (s : State) : (deliveredBits d s).length = s.params.n := by
  simp [deliveredBits]

/-- Every wire from the count on reads 0 (R65, R89). -/
theorem deliveredBits_getD_of_le {d j : Nat} (s : State) (h : d ≤ j) : (deliveredBits d s).getD j false = false := by
  by_cases hj : j < s.params.n
  · simp [deliveredBits, hj, Nat.not_lt.mpr h]
  · simp [deliveredBits, hj]

/-- READ, with a frame or without one, answers {OK}, a count, and N wires that are 0 from its operand on (R63, R89). -/
theorem exec_read_rsp {m : BitCount} (h : exec (.read m) s = .next t) :
    ∃ c bits, t.rsp = some ⟨.ok, c, bits, 0, 0, 0, false⟩ ∧ bits.length = s.params.n ∧
      ∀ j, m.toNat ≤ j → bits.getD j false = false := by
  obtain hp | hp := Nat.eq_zero_or_pos s.pending
  · rw [exec_read_empty m hp] at h
    cases h
    exact ⟨0, List.replicate s.params.n false, rfl, List.length_replicate, fun j _ => by simp⟩
  · rw [exec_read_pending m hp] at h
    cases h
    exact ⟨_, _, rfl, deliveredBits_length _ _, fun j hj =>
      deliveredBits_getD_of_le _ ((Nat.min_le_right _ _).trans hj)⟩

end

/-- Settles O19: the sample causes the illegal transition alone, and that one only responds. -/
theorem illegalWordAnswersIllegal : Obligations.IllegalWordAnswersIllegal := by
  refine ⟨fun s w fin rest why hlegal hdue hinputs hillegal => ?_, fun _ _ => rfl⟩
  have hx : decodeInstant s.params.n (commandInstant w fin) = [.illegal why] := by
    rw [decodeInstant_commandInstant, hillegal]
  rw [step_of_single hlegal hdue hinputs hx]
  rfl

/-- Settles O20: each command's one response, READ's in its two cases. -/
theorem eachCommandSetsOnlyItsResponseFields : Obligations.EachCommandSetsOnlyItsResponseFields := by
  intro s t
  refine ⟨fun h => ?nop, fun h => ?pend, fun m h => exec_read_rsp h, fun h => ?reset, fun d fin hd h => ?decode,
    fun why h => ?illegal⟩
  case nop => cases h; rfl
  case pend => cases h; exact ⟨_, rfl⟩
  case reset => cases h; rfl
  case decode =>
    rw [exec_decode_of_le fin hd] at h
    cases h
    exact ⟨_, _, _, _, rfl⟩
  case illegal => cases h; rfl

end Sys2Proof.Machine
end

section
/-! PROOFS. What the pseudo-statements `tick k`, `quiet` and `send` present on the ports (R70). -/

namespace Sys2Proof.Machine

/-- The edge word of a bit causes that bit's edge alone (R11, R53). -/
theorem decodeInstant_edgeWord (n : Nat) (b : Bool) :
    decodeInstant n (eventInstant (edgeWord b)) = [.instr (edgeOf b)] := by
  cases b <;> rfl

/-- `tick k` is k TICKs (R70). -/
theorem flatMap_decodeInstant_tickInstants (n k : Nat) :
    (tickInstants k).flatMap (decodeInstant n) = List.replicate k (.instr .tick) := by
  have htick : decodeInstant n (eventInstant 0b100) = [.instr .tick] := rfl
  induction k with
  | zero => rfl
  | succ k ih =>
    rw [tickInstants, List.replicate_succ, List.flatMap_cons, htick, ← tickInstants, ih, List.replicate_succ,
      List.singleton_append]

/-- `send` is one edge a bit, the gap's TICKs between two consecutive ones (R70). -/
theorem flatMap_decodeInstant_sendInstants (n gap : Nat) (bits : FrameBits) :
    (sendInstants gap bits).flatMap (decodeInstant n) =
      (List.replicate gap (Transition.instr .tick)).intercalate (bits.map fun b => [.instr (edgeOf b)]) := by
  induction bits with
  | nil => rfl
  | cons b bits ih =>
    cases bits with
    | nil => simp [sendInstants, decodeInstant_edgeWord]
    | cons c bits =>
      rw [sendInstants, List.flatMap_cons, List.flatMap_append, decodeInstant_edgeWord,
        flatMap_decodeInstant_tickInstants, ih]
      simp [List.intercalate]

/-- The gap of `send` is 1 where none is written (R70). -/
theorem parseOne_send (word : List Char) : parseOne "send".toList word = (parseBits word).map (.send · 1) := by
  rw [parseOne, if_neg (by decide), if_neg (by decide), if_pos rfl]

/-- Settles O59: what each expansion decodes to. -/
theorem sendPresentsItsBitsWithGaps : Obligations.SendPresentsItsBitsWithGaps := by
  intro p bits g k word
  exact ⟨⟨_, rfl, flatMap_decodeInstant_sendInstants p.n g bits⟩, parseOne_send word,
    ⟨_, rfl, flatMap_decodeInstant_tickInstants p.n k⟩, rfl⟩

end Sys2Proof.Machine
end

section
/-! PROOFS. The accumulator: the edges of an event word (R53), one append (R73), the edges of an EDGE01 under each policy
(R76), and RESET (R78). -/

namespace Sys2Proof.Machine

/-- Which of the eight event words cause the edge event of a bit (R53, R74, R75). -/
theorem edgeOf_mem_decodeEvent_iff :
    ∀ (b : Bool) (e : EventWord), edgeOf b ∈ decodeEvent e ↔ e.toNat % 4 = b.toNat + 1 := by decide

/-- Which of the eight event words cause edges on both lines (R53, R76). -/
theorem edge01_mem_decodeEvent_iff : ∀ e : EventWord, .edge01 ∈ decodeEvent e ↔ e.toNat % 4 = 3 := by decide

/-- The one word of RESET (R57), from the decoder's reading of its numbers. -/
theorem decodeCommand_eq_reset_iff (n : Nat) (w : CommandWord) (fin : FrameBits) :
    decodeCommand n ⟨w, fin⟩ = .instr .reset ↔ w = 0x3000 := by
  obtain ⟨hinstr, -⟩ := commandDecoderFollowsItsAlgorithm n ⟨w, fin⟩
  have hword : w = 0x3000 ↔ w.toNat = 12288 := BitVec.toNat_eq
  simp only [hinstr, hword, reduceCtorEq, and_false, or_false, false_or, and_true]
  omega

section
variable (b c : Bool) (s : State)

/-- The edge event of a bit appends it (R74, R75). -/
theorem exec_edgeOf : exec (edgeOf b) s = .next (s.appendBit b).noResponse := by
  cases b <;> rfl

/-- An append neither reads nor writes the response port. -/
theorem appendBit_noResponse : s.noResponse.appendBit b = (s.appendBit b).noResponse := by
  by_cases h : s.len < s.params.n
  · rw [appendBit_of_room b s h, appendBit_of_room b s.noResponse h]; rfl
  · rw [appendBit_of_full b s h, appendBit_of_full b s.noResponse h]; rfl

/-- The edge events of two bits append both, in their order. -/
theorem execAll_edgeOf_edgeOf :
    execAll [edgeOf b, edgeOf c] s = .next ((s.appendBit b).appendBit c).noResponse := by
  simp only [execAll, exec_edgeOf, appendBit_noResponse]
  rfl

/-- An append never shortens the buffer. -/
theorem len_le_appendBit_len : s.len ≤ (s.appendBit b).len := by
  rw [appendBit_len]; split <;> omega

/-- The edge event of a bit, in the two cases of R73. -/
theorem exec_edgeOf_appends_or_drops :
    ∃ t, exec (edgeOf b) s = .next t ∧ t.last = s.now ∧ t.now = s.now ∧
      (s.len < s.params.n → t.len = s.len + 1 ∧ t.buf = s.buf.set s.len b) ∧
      (¬ s.len < s.params.n → t.len = s.len ∧ t.buf = s.buf) := by
  refine ⟨_, exec_edgeOf b s, appendBit_last b s, appendBit_now b s, fun h => ?room, fun h => ?full⟩
  case room => rw [appendBit_of_room b s h]; exact ⟨rfl, rfl⟩
  case full => rw [appendBit_of_full b s h]; exact ⟨rfl, rfl⟩

end

section
variable (o : BothEdgeOutcome) (s : State)

/-- What one append keeps, every outcome of edges on both lines keeps. -/
theorem appendBoth_induction {P : State → Prop} (hP : ∀ b u, P u → P (State.appendBit b u)) (hs : P s) :
    P (s.appendBoth o) := by
  cases o with
  | order01 => exact hP _ _ (hP _ _ hs)
  | order10 => exact hP _ _ (hP _ _ hs)
  | keep0 => exact hP _ _ hs
  | keep1 => exact hP _ _ hs

/-- In a full buffer every outcome only stamps `LAST` (R77). -/
theorem appendBoth_of_full (h : ¬ s.len < s.params.n) : s.appendBoth o = { s with last := s.now } := by
  cases o <;> simp [State.appendBoth, appendBit_of_full, h]

/-- Every outcome keeps the number of cells. -/
theorem appendBoth_bufferWf (h : s.bufferWf) : (s.appendBoth o).bufferWf :=
  appendBoth_induction o s (P := State.bufferWf) (fun b u hu => by simpa [State.bufferWf] using hu) h

/-- No outcome shortens the buffer. -/
theorem len_le_appendBoth_len : s.len ≤ (s.appendBoth o).len :=
  appendBoth_induction o s (P := (s.len ≤ ·.len)) (fun b u hu => hu.trans (len_le_appendBit_len b u)) le_rfl

/-- Every outcome keeps `LEN ≤ N` (R21). -/
theorem appendBoth_len_le (h : s.len ≤ s.params.n) : (s.appendBoth o).len ≤ s.params.n := by
  rw [← appendBoth_params o s]
  exact appendBoth_induction o s (P := fun u => u.len ≤ u.params.n)
    (fun b u hu => by rw [appendBit_params]; exact appendBit_len_le b u hu) h

/-- The single edges of one outcome, one after the other, come to its appends (R76). -/
theorem execAll_outcomeBits :
    execAll ((outcomeBits o).map edgeOf) s = .next (s.appendBoth o).noResponse := by
  cases o with
  | order01 => exact execAll_edgeOf_edgeOf false true s
  | order10 => exact execAll_edgeOf_edgeOf true false s
  | keep0 => rfl
  | keep1 => rfl

/-- The edges of an outcome are among the four that R76 admits. -/
theorem outcomeBits_map_edgeOf_mem :
    (outcomeBits o).map edgeOf ∈ [[Instr.edge0, .edge1], [.edge1, .edge0], [.edge0], [.edge1]] := by
  cases o <;> decide

/-- EDGE01 appends by the policy and gives no response (R76). -/
theorem exec_edge01 : exec .edge01 s = .next s.appendByPolicy.noResponse := rfl

/-- EDGE01 under a policy that fixes the outcome is that outcome's single edges (R76). -/
theorem exec_edge01_of_outcomePolicy (h : s.params.bothEdge = outcomePolicy o) :
    exec .edge01 s = execAll ((outcomeBits o).map edgeOf) s := by
  have happend : s.appendByPolicy = s.appendBoth o := by
    unfold State.appendByPolicy
    rw [h]
    cases o <;> rfl
  rw [execAll_outcomeBits, exec_edge01, happend]

/-- EDGE01 under ANY has a free outcome among the four, and the free-value counter advances (R76). -/
theorem exec_edge01_of_any (h : s.params.bothEdge = .any) :
    exec .edge01 s =
      .next ((s.appendBoth (Config.freeBothEdge s.freeIx)).setFreeIx (s.freeIx + 1)).noResponse := by
  rw [exec_edge01, State.appendByPolicy, h]

/-- EDGE01 under whatever policy: one outcome's appends, beside a free-value counter and no response. -/
theorem exec_edge01_eq_appendBoth :
    ∃ o k, exec .edge01 s = .next ((s.appendBoth o).setFreeIx k).noResponse := by
  obtain ⟨o, h | h⟩ := appendByPolicy_cases s
  · exact ⟨o, (s.appendBoth o).freeIx, by rw [exec_edge01, h]; rfl⟩
  · exact ⟨o, s.freeIx + 1, by rw [exec_edge01, h]⟩

/-- EDGE01 completes under every policy, stamps `LAST`, stores nothing in a full buffer, and keeps length and content
consistent (R76). -/
theorem exec_edge01_completes :
    ∃ t, exec .edge01 s = .next t ∧ t.last = s.now ∧ t.now = s.now ∧
      (s.params.n ≤ s.len → t.len = s.len ∧ t.buf = s.buf) ∧
      (s.bufferWf → s.len ≤ s.params.n → t.bufferWf ∧ s.len ≤ t.len ∧ t.len ≤ s.params.n) := by
  obtain ⟨o, k, h⟩ := exec_edge01_eq_appendBoth s
  refine ⟨_, h, appendBoth_last o s, appendBoth_now o s, fun hfull => ?full, fun hwf hle => ?consistent⟩
  case full => rw [appendBoth_of_full o s (Nat.not_lt.mpr hfull)]; exact ⟨rfl, rfl⟩
  case consistent => exact ⟨appendBoth_bufferWf o s hwf, len_le_appendBoth_len o s, appendBoth_len_le o s hle⟩

end

/-- Settles O13: each of the two events is the edge event of its bit. -/
theorem edgeAppendsItsBitOrDropsIt : Obligations.EdgeAppendsItsBitOrDropsIt := by
  intro s i b k hi
  simp only [List.mem_cons, Prod.mk.injEq, List.not_mem_nil, or_false] at hi
  obtain ⟨rfl, rfl, rfl⟩ | ⟨rfl, rfl, rfl⟩ := hi
  · exact ⟨edgeOf_mem_decodeEvent_iff false, exec_edgeOf_appends_or_drops false s⟩
  · exact ⟨edgeOf_mem_decodeEvent_iff true, exec_edgeOf_appends_or_drops true s⟩

/-- Settles O14: a fixed policy gives its outcome's single edges, ANY those of the free outcome, beside the free-value
counter. -/
theorem bothEdgesFollowThePolicy : Obligations.BothEdgesFollowThePolicy := by
  intro s
  refine ⟨edge01_mem_decodeEvent_iff, exec_edge01_of_outcomePolicy .order01 s,
    exec_edge01_of_outcomePolicy .order10 s, exec_edge01_of_outcomePolicy .keep0 s,
    exec_edge01_of_outcomePolicy .keep1 s, fun hany => ?_, exec_edge01_completes s⟩
  exact ⟨_, outcomeBits_map_edgeOf_mem _, _, _, execAll_outcomeBits _ s, exec_edge01_of_any s hany, rfl, rfl, rfl, rfl⟩

/-- Settles O12: the word by the decoder's numbers; RESET writes `LEN` and the response alone. -/
theorem resetClearsOnlyTheLength : Obligations.ResetClearsOnlyTheLength :=
  fun s fin => ⟨fun w => decodeCommand_eq_reset_iff s.params.n w fin, rfl⟩

end Sys2Proof.Machine
end

section
/-! PROOFS. The detector: the phases as conditions on the state (R85), the commands that only respond (R81, R83), and
what a TICK does to READY (R82). -/

namespace Sys2Proof.Machine

section
variable (s : State)

/-- Everything the phase can be, and when (R85). -/
theorem phase_cases :
    s.phase = .idle ∧ s.len = 0 ∨
      s.phase = .accumulating ∧ 0 < s.len ∧ s.elapsed < s.params.tTicks ∨
        s.phase = .ready ∧ 0 < s.len ∧ s.params.tTicks ≤ s.elapsed := by
  unfold State.phase
  split
  next hempty => exact .inl ⟨rfl, hempty⟩
  next hheld =>
    have hpos : 0 < s.len := Nat.pos_of_ne_zero hheld
    split
    next hquiet => exact .inr (.inl ⟨rfl, hpos, hquiet⟩)
    next hquiet => exact .inr (.inr ⟨rfl, hpos, Nat.not_lt.mp hquiet⟩)

/-- Idle is an empty buffer. -/
theorem phase_eq_idle_iff : s.phase = .idle ↔ s.len = 0 := by
  obtain ⟨h, hc⟩ | ⟨h, hc⟩ | ⟨h, hc⟩ := phase_cases s <;> simp only [h, reduceCtorEq, true_iff, false_iff] <;> omega

/-- Accumulating is a buffer with bits before the quiet period is over. -/
theorem phase_eq_accumulating_iff : s.phase = .accumulating ↔ 0 < s.len ∧ s.elapsed < s.params.tTicks := by
  obtain ⟨h, hc⟩ | ⟨h, hc⟩ | ⟨h, hc⟩ := phase_cases s <;> simp only [h, reduceCtorEq, true_iff, false_iff] <;> omega

/-- Ready is a buffer with bits once the quiet period is over. -/
theorem phase_eq_ready_iff : s.phase = .ready ↔ 0 < s.len ∧ s.params.tTicks ≤ s.elapsed := by
  obtain ⟨h, hc⟩ | ⟨h, hc⟩ | ⟨h, hc⟩ := phase_cases s <;> simp only [h, reduceCtorEq, true_iff, false_iff] <;> omega

end

/-- Settles O43: each phase by its condition, and READY's condition is that of Ready. -/
theorem readyAndPhasesPartitionTheStates : Obligations.ReadyAndPhasesPartitionTheStates := fun s =>
  ⟨(ready_iff s).trans (phase_eq_ready_iff s).symm, phase_eq_idle_iff s, phase_eq_accumulating_iff s,
    phase_eq_ready_iff s⟩

/-- NOP and PEND have one word each (R57), from the decoder's reading of its numbers. -/
theorem decodeCommand_eq_nop_or_pend_iff (n : Nat) (w : CommandWord) (fin : FrameBits) {i : Instr} {k : CommandWord}
    (hrow : (i, k) ∈ [(Instr.nop, 0x0000), (Instr.pend, 0x1000)]) :
    decodeCommand n ⟨w, fin⟩ = .instr i ↔ w = k := by
  obtain ⟨hinstr, -⟩ := commandDecoderFollowsItsAlgorithm n ⟨w, fin⟩
  simp only [List.mem_cons, Prod.mk.injEq, List.not_mem_nil, or_false] at hrow
  obtain ⟨rfl, rfl⟩ | ⟨rfl, rfl⟩ := hrow
  · have hword : w = 0x0000 ↔ w.toNat = 0 := BitVec.toNat_eq
    simp only [hinstr, hword, reduceCtorEq, and_false, or_false, and_true]
    omega
  · have hword : w = 0x1000 ↔ w.toNat = 4096 := BitVec.toNat_eq
    simp only [hinstr, hword, reduceCtorEq, and_false, or_false, false_or, and_true]
    omega

section
variable {i : Instr} {s t : State} {r : Response}

/-- READY does not read the response port, so an instruction that only responds keeps it. -/
theorem OnlyResponds.ready_eq (h : OnlyResponds i s r) (hexec : exec i s = .next t) : t.ready = s.ready := by
  obtain ⟨hframe, -⟩ := h.idempotent hexec
  rw [hframe]
  rfl

end

section
variable {s : State}

/-- The pending count never exceeds `LEN`. -/
theorem pending_le_len (s : State) : s.pending ≤ s.len := by
  obtain h | h := Nat.eq_zero_or_pos s.pending
  · omega
  · exact (pending_eq_len s h).le

/-- A legal capacity is at most 255 bits (R119). -/
theorem n_le_of_legal {p : Params} (h : p.legal = true) : p.n ≤ 255 := by
  simp only [Params.legal, Bool.and_eq_true, decide_eq_true_eq] at h
  obtain ⟨⟨⟨-, hn⟩, -⟩, -⟩ := h
  exact hn

/-- The pending count fits the 8 bits of `RSP_COUNT` (R62). -/
theorem pending_lt_of_inv (h : s.Inv) : s.pending < 2 ^ 8 := by
  obtain ⟨hlegal, -, hlen, -⟩ := h
  have hn : s.params.n ≤ 255 := n_le_of_legal hlegal
  have hp : s.pending ≤ s.len := pending_le_len s
  omega

end

/-- Settles O9: the word by the decoder's numbers; NOP only responds. -/
theorem nopAnswersOkAndChangesNothing : Obligations.NopAnswersOkAndChangesNothing := fun s fin =>
  ⟨fun w => decodeCommand_eq_nop_or_pend_iff s.params.n w fin (by simp), rfl,
    fun _ hexec => (nop_onlyResponds s).ready_eq hexec⟩

/-- Settles O10: the count as the spec writes it is the model's `pending`; PEND only responds, with that count. -/
theorem pendAnswersThePendingCount : Obligations.PendAnswersThePendingCount := by
  intro s fin p hp
  have hpending : s.pending = p := hp.symm
  subst hpending
  exact ⟨fun w => decodeCommand_eq_nop_or_pend_iff s.params.n w fin (by simp), rfl, rfl,
    fun hinv => (BitVec.toNat_ofNat ..).trans (Nat.mod_eq_of_lt (pending_lt_of_inv hinv)),
    fun _ hexec => (pend_onlyResponds s).ready_eq hexec⟩

/-- Which of the eight event words cause a TICK (R53, R82). -/
theorem tick_mem_decodeEvent_iff : ∀ e : EventWord, .tick ∈ decodeEvent e ↔ 4 ≤ e.toNat := by decide

section
variable {s t : State}

/-- TICK writes `NOW` and clears the response port (R82). -/
theorem exec_tick (s : State) : exec .tick s = .next { s with now := s.now + 1, rsp := none } := rfl

/-- While bits are held, a TICK lengthens the quiet time by one; there the subtraction of R28 does not truncate (R27). -/
theorem exec_tick_elapsed (hle : s.last ≤ s.now) (h : exec .tick s = .next t) : t.elapsed = s.elapsed + 1 := by
  cases h
  exact Nat.sub_add_comm hle

/-- READY after a TICK, in terms of the state before it. -/
theorem exec_tick_ready_iff (hle : 0 < s.len → s.last ≤ s.now) (h : exec .tick s = .next t) :
    t.ready = true ↔ 0 < s.len ∧ s.params.tTicks ≤ s.elapsed + 1 := by
  have helapsed : 0 < s.len → t.elapsed = s.elapsed + 1 := fun hlen => exec_tick_elapsed (hle hlen) h
  have hparams : t.params = s.params := by cases h; rfl
  have hlen : t.len = s.len := by cases h; rfl
  rw [ready_iff, hparams, hlen]
  exact and_congr_right fun hpos => by rw [helapsed hpos]

/-- A TICK never lowers READY. -/
theorem exec_tick_keeps_ready (hle : 0 < s.len → s.last ≤ s.now) (h : exec .tick s = .next t)
    (hready : s.ready = true) : t.ready = true := by
  obtain ⟨hlen, hquiet⟩ := (ready_iff s).1 hready
  exact (exec_tick_ready_iff hle h).2 ⟨hlen, by omega⟩

/-- A TICK raises READY exactly when it brings the quiet time of the bits held to the threshold (R82). -/
theorem exec_tick_raises_ready_iff (hle : 0 < s.len → s.last ≤ s.now) (h : exec .tick s = .next t) :
    s.ready = false ∧ t.ready = true ↔ 0 < s.len ∧ t.elapsed = s.params.tTicks := by
  have helapsed : 0 < s.len → t.elapsed = s.elapsed + 1 := fun hlen => exec_tick_elapsed (hle hlen) h
  rw [← Bool.not_eq_true, ready_iff, exec_tick_ready_iff hle h]
  omega

end

/-- Settles O11: READY rises exactly at the threshold because the quiet time grows by one a TICK. -/
theorem tickAdvancesNowByOne : Obligations.TickAdvancesNowByOne := by
  intro s
  refine ⟨tick_mem_decodeEvent_iff, _, exec_tick s, rfl, rfl, rfl, rfl, fun hinv => ?_⟩
  obtain ⟨-, -, -, hle, -⟩ := hinv
  exact ⟨exec_tick_keeps_ready hle (exec_tick s), exec_tick_raises_ready_iff hle (exec_tick s)⟩

end Sys2Proof.Machine
end

section
/-! PROOFS. The reader: the word of READ, what READ drains and answers with a frame ready and without one, and READY
afterwards (R87, R88, R89, R92). -/

namespace Sys2Proof.Machine

/-- The one word of READ m (R57), from the decoder's reading of its numbers. -/
theorem decodeCommand_eq_read_iff (n : Nat) (w : CommandWord) (fin : FrameBits) (m : BitCount) :
    decodeCommand n ⟨w, fin⟩ = .instr (.read m) ↔ w.toNat = 0x2000 + m.toNat := by
  obtain ⟨hinstr, -⟩ := commandDecoderFollowsItsAlgorithm n ⟨w, fin⟩
  have hm : m = BitVec.ofNat 8 (w.toNat % 256) ↔ m.toNat = w.toNat % 256 := by
    rw [BitVec.toNat_eq, BitVec.toNat_ofNat, Nat.mod_mod]
  have hbound : m.toNat < 256 := m.isLt
  simp only [hinstr, Instr.read.injEq, hm, reduceCtorEq, and_false, or_false, false_or]
  omega

/-- No frame is pending exactly when the condition R79 asks for a ready one fails. -/
theorem pending_eq_zero_iff (s : State) : s.pending = 0 ↔ ¬ (0 < s.len ∧ s.params.tTicks ≤ s.elapsed) := by
  rw [← pending_pos_iff, Nat.pos_iff_ne_zero, not_not]

/-- READY is low exactly when nothing is pending (R84). -/
theorem ready_eq_false_iff (s : State) : s.ready = false ↔ s.pending = 0 := by
  rw [State.ready, decide_eq_false_iff_not, Nat.not_lt, Nat.le_zero]

section
variable {s t : State}

/-- After a READ nothing is pending: it found nothing, or it drained what it found (R89). -/
theorem pending_eq_zero_of_exec_read {m : BitCount} (h : exec (.read m) s = .next t) : t.pending = 0 := by
  obtain hp | hp := Nat.eq_zero_or_pos s.pending
  · rw [exec_read_empty m hp] at h
    cases h
    exact hp
  · obtain ⟨hlen, -⟩ := exec_read_drains hp h
    exact pending_of_empty t hlen

end

/-- READ answers {OK} with the pending count, whether a frame is ready or not (R88, R92). -/
theorem exec_read_answers_pending (m : BitCount) (s : State) :
    ∃ t r, exec (.read m) s = .next t ∧ t.rsp = some r ∧ r.status = .ok ∧ r.count = BitVec.ofNat 8 s.pending := by
  obtain hp | hp := Nat.eq_zero_or_pos s.pending
  · exact ⟨_, _, exec_read_empty m hp, rfl, rfl, by rw [hp]; rfl⟩
  · exact ⟨_, _, exec_read_pending m hp, rfl, rfl, by rw [pending_eq_len s hp]; rfl⟩

/-- Settles O15: the word by the decoder's numbers; a frame is ready exactly when one is pending, the case split of
READ. -/
theorem readDrainsACompleteFrameOrNothing : Obligations.ReadDrainsACompleteFrameOrNothing := fun s m fin =>
  ⟨fun w => decodeCommand_eq_read_iff s.params.n w fin m,
    fun hnone => exec_read_empty m ((pending_eq_zero_iff s).2 hnone),
    fun hready => exec_read_pending m ((pending_pos_iff s).2 hready),
    fun t hexec => (ready_eq_false_iff t).2 (pending_eq_zero_of_exec_read hexec)⟩

/-- Settles O16: the pending count is at most `LEN`, which the invariant holds to N, and fits its 8 bits. -/
theorem readHasNoErrorOutcome : Obligations.ReadHasNoErrorOutcome := by
  intro s m hinv
  obtain ⟨t, r, hexec, hrsp, hstatus, hcount⟩ := exec_read_answers_pending m s
  have hpending : r.count.toNat = s.pending := by
    rw [hcount, BitVec.toNat_ofNat, Nat.mod_eq_of_lt (pending_lt_of_inv hinv)]
  obtain ⟨-, -, hlen, -⟩ := hinv
  exact ⟨t, r, hexec, hrsp, hstatus, hpending ▸ (pending_le_len s).trans hlen, hpending⟩

end Sys2Proof.Machine
end

section
/-! PROOFS. The extractor: one more bit at the end of the frame (R94), the widths of facility and card, the word of DECODE,
and its answer (R98, R99). -/

namespace Sys2Proof.Machine

/-- One more bit at the end of the frame is the loop's last pass (R94). -/
theorem extractFrom_append (bits : FrameBits) (b : Bool) (i : Nat) (f : Fields) :
    extractFrom i (bits ++ [b]) f = extractStep (i + bits.length) b (extractFrom i bits f) := by
  induction bits generalizing i f with
  | nil => rfl
  | cons c cs ih =>
    have hindex : i + 1 + cs.length = i + (c :: cs).length := by rw [List.length_cons]; omega
    rw [List.cons_append, extractFrom, ih, hindex, extractFrom]

/-- One more bit at the end of the frame has the frame's length for its index (R94). -/
theorem extract_append (bits : FrameBits) (b : Bool) :
    extract (bits ++ [b]) = extractStep bits.length b (extract bits) := by
  rw [extract, extractFrom_append, Nat.zero_add, extract]

/-- The bit shifted in, as the number 1 or 0 (R16). -/
theorem shiftIn_eq (x : Nat) (b : Bool) : shiftIn x b = 2 * x + (if b then 1 else 0) := by cases b <;> rfl

/-- Shifting a bit in makes a number at most one bit longer (R16). -/
theorem shiftIn_lt {x k : Nat} (b : Bool) (h : x < 2 ^ k) : shiftIn x b < 2 ^ (k + 1) := by
  have hbit : b.toNat < 2 := b.toNat_lt
  rw [shiftIn, Nat.pow_succ]
  omega

/-- A field that takes the bits at indices lo to hi alone has, before index i, at most as many bits as there are such
indices below i; the pass at index i keeps this. -/
theorem shiftWindow_lt {lo hi i x : Nat} (b : Bool) (h : x < 2 ^ (min (hi + 1) i - lo)) :
    (if lo ≤ i ∧ i ≤ hi then shiftIn x b else x) < 2 ^ (min (hi + 1) (i + 1) - lo) := by
  split
  next hin =>
    have hwidth : min (hi + 1) (i + 1) - lo = min (hi + 1) i - lo + 1 := by omega
    rw [hwidth]
    exact shiftIn_lt b h
  next hout =>
    have hwidth : min (hi + 1) (i + 1) - lo = min (hi + 1) i - lo := by omega
    rw [hwidth]
    exact h

/-- Facility has at most one bit for each index from 1 to 8 that the frame has. -/
theorem extract_fac_lt (bits : FrameBits) : (extract bits).fac < 2 ^ (min 9 bits.length - 1) := by
  induction bits using List.reverseRecOn with
  | nil => decide
  | append_singleton bits b ih =>
    rw [extract_append, List.length_append]
    exact shiftWindow_lt b ih

/-- Card has at most one bit for each index from 9 to 24 that the frame has. -/
theorem extract_card_lt (bits : FrameBits) : (extract bits).card < 2 ^ (min 25 bits.length - 9) := by
  induction bits using List.reverseRecOn with
  | nil => decide
  | append_singleton bits b ih =>
    rw [extract_append, List.length_append]
    exact shiftWindow_lt b ih

/-- Facility fits the 8 bits of `RSP_FAC` (R62). -/
theorem extract_fac_fits (bits : FrameBits) : (extract bits).fac < 2 ^ 8 :=
  (extract_fac_lt bits).trans_le (Nat.pow_le_pow_right Nat.two_pos (by omega))

/-- Card fits the 16 bits of `RSP_CARD` (R62). -/
theorem extract_card_fits (bits : FrameBits) : (extract bits).card < 2 ^ 16 :=
  (extract_card_lt bits).trans_le (Nat.pow_le_pow_right Nat.two_pos (by omega))

/-- The one word of DECODE d, for a count the capacity holds and a bus of N wires (R57, R58), from the decoder's reading
of its numbers. -/
theorem decodeCommand_eq_decode_iff {n : Nat} {d : BitCount} {fin : FrameBits} (w : CommandWord) (hd : d.toNat ≤ n)
    (hfin : fin.length = n) : decodeCommand n ⟨w, fin⟩ = .instr (.decode d fin) ↔ w.toNat = 0x4000 + d.toNat := by
  obtain ⟨hinstr, -⟩ := commandDecoderFollowsItsAlgorithm n ⟨w, fin⟩
  have harg : d = BitVec.ofNat 8 (w.toNat % 256) ↔ d.toNat = w.toNat % 256 := by
    rw [BitVec.toNat_eq, BitVec.toNat_ofNat, Nat.mod_mod]
  have hbound : d.toNat < 256 := d.isLt
  simp only [hinstr, finBus_of_length hfin, Instr.decode.injEq, harg, reduceCtorEq, and_false, and_true, false_or]
  omega

/-- DECODE of any count only responds, so READY is as before (R99). -/
theorem exec_decode_ready {s t : State} {d : BitCount} {fin : FrameBits} (h : exec (.decode d fin) s = .next t) :
    t.ready = s.ready := by
  obtain ⟨r, hr⟩ := decode_onlyResponds d fin s
  exact hr.ready_eq h

/-- Settles O21: one more bit is one more pass of the loop, whose body shifts by the index. -/
theorem extractShiftsInEachBitByItsIndex : Obligations.ExtractShiftsInEachBitByItsIndex := by
  refine ⟨rfl, fun bits b => ?_⟩
  simp only [extract_append, extractStep, shiftIn_eq, and_self]

/-- Settles O17: the word by the decoder's numbers; DECODE only responds, with the fields of its frame, which fit their
wires. -/
theorem decodeAnswersTheFieldsOfItsFrame : Obligations.DecodeAnswersTheFieldsOfItsFrame := by
  intro s d fin f hd hf
  have hfields : f = extract (frameOperand d.toNat fin) := hf
  subst hfields
  refine ⟨fun w hfin => decodeCommand_eq_decode_iff w hd hfin, exec_decode_of_le fin hd, ?fac, ?card,
    fun _ hexec => exec_decode_ready hexec⟩
  case fac => rw [BitVec.toNat_ofNat, Nat.mod_eq_of_lt (extract_fac_fits _)]
  case card => rw [BitVec.toNat_ofNat, Nat.mod_eq_of_lt (extract_card_fits _)]

end Sys2Proof.Machine
end

section
/-! PROOFS. Every instruction, every transition and every step with legal parameters completes (R102). -/

namespace Sys2Proof.Machine

/-- Every instruction completes (R102): READ with a frame or without one, DECODE with its count in range or over it, and
the others by their one answer. -/
theorem exec_completes (i : Instr) (s : State) : ∃ t, exec i s = .next t := by
  cases i with
  | nop => exact ⟨_, nop_onlyResponds s s.rsp⟩
  | pend => exact ⟨_, pend_onlyResponds s s.rsp⟩
  | read m =>
    obtain ⟨t, -, hexec, -⟩ := exec_read_answers_pending m s
    exact ⟨t, hexec⟩
  | reset => exact ⟨s.clearLen.respondOk, rfl⟩
  | decode d fin =>
    obtain ⟨r, hr⟩ := decode_onlyResponds d fin s
    exact ⟨_, hr s.rsp⟩
  | edge0 => exact ⟨_, exec_edgeOf false s⟩
  | edge1 => exact ⟨_, exec_edgeOf true s⟩
  | edge01 => exact ⟨_, exec_edge01 s⟩
  | tick => exact ⟨_, exec_tick s⟩

/-- Every transition completes: an illegal word is answered (R61), and power-on reset has a next state (R34). -/
theorem perform_completes (x : Transition) (s : State) : ∃ t, perform x s = .next t := by
  cases x with
  | instr i => exact exec_completes i s
  | illegal _ => exact ⟨s.illegalCommand, rfl⟩
  | powerOn => exact ⟨s.powerOnReset, rfl⟩

/-- What was taken from the ports completes; with nothing taken the block waits (R44). -/
theorem performNext_completes (x : State × Option Transition) : ∃ t, performNext x = .next t := by
  obtain ⟨s, _ | tr⟩ := x
  · exact ⟨s.noResponse, rfl⟩
  · exact perform_completes tr s

/-- Settles O38: with legal parameters a step performs what it takes, and every transition completes. -/
theorem everyTransitionCompletes : Obligations.EveryTransitionCompletes := by
  refine ⟨exec_completes, perform_completes, fun s hlegal => ?_⟩
  rw [step_of_legal hlegal]
  exact performNext_completes s.nextTransition

end Sys2Proof.Machine
end

section
/-! PROOFS. The encoder and the decoder undo each other (R53, R57, R59): every well-formed instruction comes back from
its port words, and every legal command word from its instruction. -/

namespace Sys2Proof

open Machine

section
variable {n : Nat} {t : CommandTxn} {i : Instr}

/-- A sample with only an event word causes that word's events alone. -/
@[simp] theorem decodeInstant_eventInstant (n : Nat) (e : EventWord) :
    decodeInstant n (eventInstant e) = (decodeEvent e).map .instr := by
  simp [decodeInstant, eventInstant]

/-- The decoder gives back a well-formed instruction: a command by the fields of its word, an event by its pattern. -/
theorem decodeInstant_encode (h : i.wellFormed n = true) : decodeInstant n (encode n i) = [.instr i] := by
  cases i with
  | nop => simp [encode, decodeCommand_eq_instr_iff]
  | pend => simp [encode, decodeCommand_eq_instr_iff]
  | read m => simp [encode, decodeCommand_eq_instr_iff]
  | reset => simp [encode, decodeCommand_eq_instr_iff]
  | decode d fin =>
    simp only [Instr.wellFormed, Bool.and_eq_true, decide_eq_true_eq] at h
    obtain ⟨hd, hfin⟩ := h
    simp [encode, decodeCommand_eq_instr_iff, hd, finBus_of_length hfin]
  | edge0 => rw [encode, decodeInstant_eventInstant]; rfl
  | edge1 => rw [encode, decodeInstant_eventInstant]; rfl
  | edge01 => rw [encode, decodeInstant_eventInstant]; rfl
  | tick => rw [encode, decodeInstant_eventInstant]; rfl

/-- The encoder's sample has an operand bus of N wires. -/
theorem encode_wellFormed (h : i.wellFormed n = true) : (encode n i).wellFormed n = true := by
  cases i with
  | decode d fin =>
    simp only [Instr.wellFormed, Bool.and_eq_true] at h
    obtain ⟨-, hfin⟩ := h
    exact hfin
  | _ => simp [encode, Instant.wellFormed, commandInstant, eventInstant]

/-- A command word is put together from its own fields (R55). -/
theorem commandWord_fields (w : CommandWord) : commandWord (opField w) (rsvField w) (argField w) = w := by
  apply BitVec.eq_of_toNat_eq
  rw [commandWord_toNat, opField_toNat, rsvField_toNat, argField_toNat]
  omega

/-- A legal command word is its operation's number, `RSV = 0` and `ARG` put together. -/
theorem commandWord_of_fields {w : CommandWord} {op : BitVec 4} {arg : BitCount}
    (hop : (opField w).toNat = op.toNat) (hrsv : rsvField w = 0) (harg : argField w = arg) :
    commandWord op 0 arg = w := by
  rw [← BitVec.eq_of_toNat_eq hop, ← hrsv, ← harg, commandWord_fields]

/-- An instruction decoded from a command word is well formed: a DECODE's count was checked, and its bus is N wires. -/
theorem wellFormed_of_decodeCommand (h : decodeCommand n t = .instr i) : i.wellFormed n = true := by
  obtain ⟨-, ⟨-, -, rfl⟩ | ⟨-, -, rfl⟩ | ⟨-, rfl⟩ | ⟨-, -, rfl⟩ | ⟨-, hd, rfl⟩⟩ := decodeCommand_eq_instr_iff.1 h
  · rfl
  · rfl
  · rfl
  · rfl
  · simp [Instr.wellFormed, hd]

/-- Encoding what a command word decodes to gives the word back, and DECODE's bus is the N wires read. -/
theorem encode_of_decodeCommand (h : decodeCommand n t = .instr i) :
    ∃ fin, encode n i = commandInstant t.word fin ∧ ∀ d b, i = .decode d b → fin = b ∧ b = finBus n t.fin := by
  obtain ⟨hrsv, ⟨hop, harg, rfl⟩ | ⟨hop, harg, rfl⟩ | ⟨hop, rfl⟩ | ⟨hop, harg, rfl⟩ | ⟨hop, -, rfl⟩⟩ :=
    decodeCommand_eq_instr_iff.1 h
  · exact ⟨_, congrArg (commandInstant · _) (commandWord_of_fields (op := 0) hop hrsv harg), by simp⟩
  · exact ⟨_, congrArg (commandInstant · _) (commandWord_of_fields (op := 1) hop hrsv harg), by simp⟩
  · exact ⟨_, congrArg (commandInstant · _) (commandWord_of_fields (op := 2) hop hrsv rfl), by simp⟩
  · exact ⟨_, congrArg (commandInstant · _) (commandWord_of_fields (op := 3) hop hrsv harg), by simp⟩
  · exact ⟨_, congrArg (commandInstant · _) (commandWord_of_fields (op := 4) hop hrsv rfl), by simp⟩

/-- A command word that encodes an instruction fits the instruction's row, since every encoding does. -/
theorem word_fits_row_of_encode {fin : FrameBits} {mt mk : CommandWord} (hlaw : Laws.EncodesInItsRow.Statement i)
    (hrow : commandRow i = some (mt, mk)) (hencode : encode n i = commandInstant t.word fin) : t.word &&& mk = mt := by
  obtain ⟨hcommand, -⟩ := hlaw n
  obtain ⟨u, hu, hfits⟩ := hcommand mt mk hrow
  rw [hencode] at hu
  cases hu
  exact hfits

/-- A legal command word carries the match of its row under the row's mask (R57). -/
theorem word_fits_row (h : decodeCommand n t = .instr i) :
    ∃ mt mk, commandRow i = some (mt, mk) ∧ t.word &&& mk = mt := by
  obtain ⟨fin, hencode, -⟩ := encode_of_decodeCommand h
  obtain ⟨-, ⟨-, -, rfl⟩ | ⟨-, -, rfl⟩ | ⟨-, rfl⟩ | ⟨-, -, rfl⟩ | ⟨-, -, rfl⟩⟩ := decodeCommand_eq_instr_iff.1 h
  · exact ⟨_, _, rfl, word_fits_row_of_encode Laws.EncodesInItsRow.nop rfl hencode⟩
  · exact ⟨_, _, rfl, word_fits_row_of_encode Laws.EncodesInItsRow.pend rfl hencode⟩
  · exact ⟨_, _, rfl, word_fits_row_of_encode (Laws.EncodesInItsRow.read _) rfl hencode⟩
  · exact ⟨_, _, rfl, word_fits_row_of_encode Laws.EncodesInItsRow.reset rfl hencode⟩
  · exact ⟨_, _, rfl, word_fits_row_of_encode (Laws.EncodesInItsRow.decode _ _) rfl hencode⟩

/-- An event word causes an event exactly when it carries the event's pattern (R53), word by word. -/
theorem mem_decodeEvent_iff_pattern {mt mk : EventWord} (h : eventRow i = some (mt, mk)) (e : EventWord) :
    i ∈ decodeEvent e ↔ e &&& mk = mt := by
  cases i with
  | edge0 => cases h; revert e; decide
  | edge1 => cases h; revert e; decide
  | edge01 => cases h; revert e; decide
  | tick => cases h; revert e; decide
  | _ => cases h

/-- No event word causes anything but edges and TICK, and at most one of each (R53). -/
theorem decodeEvent_events :
    ∀ e : EventWord, (decodeEvent e).length ≤ 2 ∧ ∀ i ∈ decodeEvent e, isEdge i = true ∨ i = .tick := by decide

/-- Whatever a command transaction holds, its transition is well formed. -/
theorem decodeCommand_wellFormed (n : Nat) (t : CommandTxn) : (decodeCommand n t).wellFormed n = true := by
  obtain ⟨i, h⟩ | ⟨why, h⟩ := decodeCommand_total n t
  · rw [h]; exact wellFormed_of_decodeCommand h
  · rw [h]; rfl

/-- Edges and TICK have no operand, so an event is always well formed. -/
theorem wellFormed_of_mem_decodeEvent {e : EventWord} (h : i ∈ decodeEvent e) : i.wellFormed n = true := by
  obtain ⟨-, hevents⟩ := decodeEvent_events e
  obtain hi | rfl := hevents i h
  · cases i with
    | decode d fin => cases hi
    | _ => rfl
  · rfl

/-- Every transition one sample causes is well formed. -/
theorem wellFormed_of_mem_decodeInstant {x : Instant} {tr : Transition} (h : tr ∈ decodeInstant n x) :
    tr.wellFormed n = true := by
  unfold decodeInstant at h
  split at h
  · rw [List.mem_singleton.1 h]; rfl
  · obtain hevent | hcommand := List.mem_append.1 h
    · obtain ⟨i, hi, rfl⟩ := List.mem_map.1 hevent
      exact wellFormed_of_mem_decodeEvent hi
    · obtain ⟨txn, -, rfl⟩ := Option.map_eq_some_iff.1 (Option.mem_toList.1 hcommand)
      exact decodeCommand_wellFormed n txn

/-- One sample causes at most an edge, a TICK and one command's transition. -/
theorem decodeInstant_length_le (n : Nat) (x : Instant) : (decodeInstant n x).length ≤ 3 := by
  obtain ⟨hevents, -⟩ := decodeEvent_events x.event
  have hcommand : (x.command.map (decodeCommand n)).toList.length ≤ 1 := by cases x.command <;> simp
  unfold decodeInstant
  split
  · simp
  · rw [List.length_append, List.length_map]
    omega

end

/-- Settles O4: a legal word is the encoding of its instruction, which fits its row; the event patterns word by word. -/
theorem wordsFitTheirOpcodeRows : Obligations.WordsFitTheirOpcodeRows :=
  ⟨fun _ _ _ h => word_fits_row h, fun e _ _ _ h => mem_decodeEvent_iff_pattern h e⟩

/-- Settles O7: at most two events and one command, each well formed. -/
theorem decodedTransitionsAreWellFormed : Obligations.DecodedTransitionsAreWellFormed :=
  fun n x => ⟨decodeInstant_length_le n x, fun _ h => wellFormed_of_mem_decodeInstant h⟩

/-- Settles O5: the command decoder reads back the fields the encoder put together, and the events their patterns. -/
theorem encodeThenDecodeGivesBackTheInstruction : Obligations.EncodeThenDecodeGivesBackTheInstruction :=
  fun _ _ h => ⟨decodeInstant_encode h, encode_wellFormed h⟩

/-- Settles O6: the word is put together from its own fields. -/
theorem decodeThenEncodeGivesBackTheWord : Obligations.DecodeThenEncodeGivesBackTheWord := by
  intro n t i h
  obtain ⟨fin, hencode, hbus⟩ := encode_of_decodeCommand h
  exact ⟨fin, hencode, wellFormed_of_decodeCommand h, hbus⟩

/-- Settles O8: the decoder's checks evaluated on the fields of each word. -/
theorem specWordsDecodeToTheirInstructions : Obligations.SpecWordsDecodeToTheirInstructions := by
  intro fin
  have hedges : decodeEvent 3#3 = [.edge01] := rfl
  simp [decodeCommand, withoutOperand, rsvField, opField, argField, hedges]

end Sys2Proof
end

section
/-! PROOFS. The invariant (R21, R22, R27, R95) over the shared operations, one instruction, one transition, one step,
and a run from power-on. -/

namespace Sys2Proof.Machine

/-- A response whose bits are all 0 and whose raw value is 0 fits its port. -/
theorem zero_fits (n : Nat) (st : Status) : (Response.zero n st).fits n :=
  ⟨List.length_replicate, Nat.two_pow_pos n⟩

/-- raw has at most one bit for each bit of the frame (R95). -/
theorem extract_raw_lt (bits : FrameBits) : (extract bits).raw < 2 ^ bits.length := by
  induction bits using List.reverseRecOn with
  | nil => decide
  | append_singleton bits b ih =>
    rw [extract_append, List.length_append]
    exact shiftIn_lt b ih

/-- The frame operand of DECODE d has d bits. -/
@[simp] theorem frameOperand_length (d : Nat) (fin : FrameBits) : (frameOperand d fin).length = d := by
  simp [frameOperand]

/-- The response of a DECODE whose count the capacity holds fits its port (R95). -/
theorem decodeResponse_fits {n d : Nat} (fin : FrameBits) (h : d ≤ n) : (decodeResponse n d fin).fits n := by
  have hraw := extract_raw_lt (frameOperand d fin)
  rw [frameOperand_length] at hraw
  exact ⟨List.length_replicate, hraw.trans_le (Nat.pow_le_pow_right Nat.two_pos h)⟩

section
variable {s t : State}

/-- The response of a draining READ fits its port (R65). -/
theorem frameResponse_fits (m : Nat) (s : State) : (frameResponse m s).fits s.params.n :=
  ⟨deliveredBits_length _ s, Nat.two_pow_pos _⟩

/-- DECODE of a count over the capacity answers as an illegal word does (log 14). -/
theorem exec_decode_of_gt {d : BitCount} (fin : FrameBits) (h : s.params.n < d.toNat) :
    exec (.decode d fin) s = .next s.illegalCommand := if_neg (by simpa [deliveredCount] using h)

/-- The parameters of the invariant are legal (R119). -/
theorem State.Inv.legal (h : s.Inv) : s.params.legal = true := by
  obtain ⟨hlegal, -⟩ := h
  exact hlegal

/-- The buffer of the invariant has N cells (R22). -/
theorem State.Inv.buf_length (h : s.Inv) : s.buf.length = s.params.n := by
  obtain ⟨-, hbuf, -⟩ := h
  exact hbuf

/-- In the invariant `LEN ≤ N` (R21). -/
theorem State.Inv.len_le (h : s.Inv) : s.len ≤ s.params.n := by
  obtain ⟨-, -, hlen, -⟩ := h
  exact hlen

/-- In the invariant `LAST ≤ NOW` while bits are held (R27). -/
theorem State.Inv.last_le (h : s.Inv) (hpos : 0 < s.len) : s.last ≤ s.now := by
  obtain ⟨-, -, -, hlast, -⟩ := h
  exact hlast hpos

/-- Driving the response port with a response that fits it keeps the invariant. -/
theorem respond_inv {r : Response} (hfits : r.fits s.params.n) (h : s.Inv) : (s.respond r).Inv := by
  obtain ⟨hlegal, hbuf, hlen, hlast, hdue, -⟩ := h
  exact ⟨hlegal, hbuf, hlen, hlast, hdue, fun q hq => by cases hq; exact hfits⟩

/-- An idle response port keeps the invariant. -/
theorem noResponse_inv (h : s.Inv) : s.noResponse.Inv := by
  obtain ⟨hlegal, hbuf, hlen, hlast, hdue, -⟩ := h
  exact ⟨hlegal, hbuf, hlen, hlast, hdue, nofun⟩

/-- Emptying the buffer keeps the invariant. -/
theorem clearLen_inv (h : s.Inv) : s.clearLen.Inv := by
  obtain ⟨hlegal, hbuf, -, -, hdue, hrsp⟩ := h
  exact ⟨hlegal, hbuf, Nat.zero_le _, fun hpos => absurd hpos (Nat.lt_irrefl 0), hdue, hrsp⟩

/-- An append keeps the invariant: it stores its bit only where there is room, and stamps `LAST` with `NOW`. -/
theorem appendBit_inv (b : Bool) (s : State) (h : s.Inv) : (s.appendBit b).Inv := by
  obtain ⟨hlegal, hbuf, hlen, -, hdue, hrsp⟩ := h
  exact ⟨by simpa using hlegal, by simpa [State.bufferWf] using hbuf, by simpa using appendBit_len_le b s hlen,
    fun _ => by simp, by simpa using hdue, by simpa using hrsp⟩

/-- Every outcome of edges on both lines keeps the invariant. -/
theorem appendBoth_inv (o : BothEdgeOutcome) (h : s.Inv) : (s.appendBoth o).Inv :=
  appendBoth_induction o s (P := State.Inv) appendBit_inv h

/-- Advancing `NOW` keeps the invariant. -/
theorem advanceNow_inv (h : s.Inv) : (s.setNow (s.now + 1)).Inv := by
  obtain ⟨hlegal, hbuf, hlen, hlast, hdue, hrsp⟩ := h
  exact ⟨hlegal, hbuf, hlen, fun hpos => Nat.le_succ_of_le (hlast hpos), hdue, hrsp⟩

/-- Power-on reset keeps the invariant: an empty buffer of N cells, whatever they hold (R34). -/
theorem powerOnReset_inv (h : s.Inv) : s.powerOnReset.Inv := by
  obtain ⟨hlegal, -, -, -, hdue, -⟩ := h
  exact ⟨hlegal, powerOnReset_bufferWf s, Nat.zero_le _, fun hpos => absurd hpos (Nat.lt_irrefl 0), hdue, nofun⟩

/-- Every instruction keeps the invariant: it responds with what fits the port, empties the buffer, appends, or advances
`NOW`. -/
theorem exec_inv {i : Instr} (hinv : s.Inv) (h : exec i s = .next t) : t.Inv := by
  cases i with
  | nop => cases h; exact respond_inv (zero_fits _ .ok) hinv
  | pend => cases h; exact respond_inv (zero_fits _ .ok) hinv
  | read m =>
    obtain hp | hp := Nat.eq_zero_or_pos s.pending
    · rw [exec_read_empty m hp] at h; cases h; exact respond_inv (zero_fits _ .ok) hinv
    · rw [exec_read_pending m hp] at h; cases h; exact respond_inv (frameResponse_fits _ s) (clearLen_inv hinv)
  | reset => cases h; exact respond_inv (zero_fits _ .ok) (clearLen_inv hinv)
  | decode d fin =>
    obtain hd | hd := Nat.lt_or_ge s.params.n d.toNat
    · rw [exec_decode_of_gt fin hd] at h; cases h; exact respond_inv (zero_fits _ .illegal) hinv
    · rw [exec_decode_of_le fin hd] at h; cases h; exact respond_inv (decodeResponse_fits fin hd) hinv
  | edge0 => cases h; exact noResponse_inv (appendBit_inv false s hinv)
  | edge1 => cases h; exact noResponse_inv (appendBit_inv true s hinv)
  | edge01 =>
    obtain ⟨o, k, hexec⟩ := exec_edge01_eq_appendBoth s
    rw [hexec] at h
    cases h
    exact noResponse_inv (s := (s.appendBoth o).setFreeIx k) (appendBoth_inv o hinv)
  | tick => cases h; exact noResponse_inv (advanceNow_inv hinv)

/-- Every transition keeps the invariant. -/
theorem perform_inv {x : Transition} (hinv : s.Inv) (h : perform x s = .next t) : t.Inv := by
  cases x with
  | instr i => exact exec_inv hinv h
  | illegal why => cases h; exact respond_inv (zero_fits _ .illegal) hinv
  | powerOn => cases h; exact powerOnReset_inv hinv

/-- Taking the next transition keeps the invariant: what stays due was due, or the decoder gave it. -/
theorem nextTransition_inv (h : s.Inv) : s.nextTransition.1.Inv := by
  obtain ⟨hlegal, hbuf, hlen, hlast, hdue, hrsp⟩ := h
  obtain ⟨hparams', hlen', hbuf', hlast', hnow', hrsp', hdue', -⟩ := nextTransition_frame s
  refine ⟨by rwa [hparams'], by rwa [State.bufferWf, hbuf', hparams'], by rwa [hlen', hparams'],
    by rwa [hlen', hlast', hnow'], fun x hx => ?_, by rwa [hrsp', hparams']⟩
  rw [hparams']
  obtain hold | ⟨y, hnew⟩ := hdue' x hx
  · exact hdue x hold
  · exact wellFormed_of_mem_decodeInstant hnew

/-- Every step that goes on keeps the invariant, whether it waits or performs a transition. -/
theorem step_inv (hinv : s.Inv) (h : step s = .next t) : t.Inv := by
  obtain ⟨-, ⟨-, rfl⟩ | ⟨x, -, hperform⟩⟩ := step_cases h
  · exact noResponse_inv (nextTransition_inv hinv)
  · exact perform_inv (nextTransition_inv hinv) hperform

/-- A state just after power-on reset has the invariant, whatever its cells, `LAST` and `NOW` hold. -/
theorem inv_of_poweredOn (h : s.PoweredOn) : s.Inv := by
  obtain ⟨hlegal, hbuf, hlen, hrsp, hdue⟩ := h
  exact ⟨hlegal, hbuf, by omega, by omega, by simp [hdue], by simp [hrsp]⟩

/-- Every reachable state has the invariant: it holds after power-on and every step keeps it. -/
theorem inv_of_reachable (h : Reachable s) : s.Inv := by
  induction h with
  | start s hpowered => exact inv_of_poweredOn hpowered
  | next s t _ hstep ih => exact step_inv ih hstep

end

/-- Settles O49: the invariant over what a step takes from the ports and what it performs. -/
theorem everyStepKeepsTheInvariant : Obligations.EveryStepKeepsTheInvariant := fun _ _ hinv h => step_inv hinv h

/-- Settles O37: the fields of the reset state, whose defaults are legal. -/
theorem resetStateIsIdleAndNotReady : Obligations.ResetStateIsIdleAndNotReady :=
  ⟨rfl, rfl, rfl, rfl, by decide⟩

/-- Settles O50: the reset state is one just after power-on reset. -/
theorem resetStateHasTheInvariant : Obligations.ResetStateHasTheInvariant := by
  obtain ⟨-, -, -, -, hpowered⟩ := resetStateIsIdleAndNotReady
  exact inv_of_poweredOn hpowered

/-- Settles O51: a reachable state has the invariant, hence legal parameters, with which a step completes. -/
theorem everyReachableStateIsSoundAndLive : Obligations.EveryReachableStateIsSoundAndLive := by
  intro s hreach
  have hinv : s.Inv := inv_of_reachable hreach
  obtain ⟨-, -, hstep⟩ := everyTransitionCompletes
  exact ⟨hinv, hstep s hinv.legal⟩

end Sys2Proof.Machine
end

section
/-! PROOFS. Frames: what each kind of instruction leaves unchanged, and which transitions may write each state element
(R33). -/

namespace Sys2Proof.Machine

section
variable {s t : State} {i : Instr}

/-- NOP, PEND and DECODE only respond. -/
theorem exec_query_frame (hi : i = .nop ∨ i = .pend ∨ ∃ d fin, i = .decode d fin) (h : exec i s = .next t) :
    t = { s with rsp := t.rsp } := by
  obtain rfl | rfl | ⟨d, fin, rfl⟩ := hi
  · obtain ⟨hframe, -⟩ := (nop_onlyResponds s).idempotent h
    exact hframe
  · obtain ⟨hframe, -⟩ := (pend_onlyResponds s).idempotent h
    exact hframe
  · obtain ⟨r, hr⟩ := decode_onlyResponds d fin s
    obtain ⟨hframe, -⟩ := hr.idempotent h
    exact hframe

/-- RESET and READ write only `LEN` and the response. -/
theorem exec_clearing_frame (hi : i = .reset ∨ ∃ m, i = .read m) (h : exec i s = .next t) :
    t = { s with len := if i = .reset ∨ 0 < s.pending then 0 else s.len, rsp := t.rsp } := by
  obtain rfl | ⟨m, rfl⟩ := hi
  · cases h; rfl
  · obtain hp | hp := Nat.eq_zero_or_pos s.pending
    · rw [exec_read_empty m hp] at h; cases h; simp [hp, State.respondOk, State.respond, State.setRsp]
    · rw [exec_read_pending m hp] at h; cases h; simp [hp, State.clearLen, State.setLen, State.respond, State.setRsp]

/-- The passive instructions write only `NOW` and the response. -/
theorem exec_passive_frame (hi : passive i = true) (h : exec i s = .next t) :
    t = { s with now := t.now, rsp := t.rsp } := by
  cases i with
  | nop => rw [exec_query_frame (.inl rfl) h]
  | pend => rw [exec_query_frame (.inr (.inl rfl)) h]
  | decode d fin => rw [exec_query_frame (.inr (.inr ⟨d, fin, rfl⟩)) h]
  | tick => cases h; rfl
  | _ => cases hi

/-- An edge event appends its bit, or the bits of one outcome when it has edges on both lines. -/
theorem exec_edge_cases (hi : isEdge i = true) (h : exec i s = .next t) :
    (∃ b, i = edgeOf b ∧ t = (s.appendBit b).noResponse) ∨
      i = .edge01 ∧ ∃ o k, t = ((s.appendBoth o).setFreeIx k).noResponse := by
  cases i with
  | edge0 => cases h; exact .inl ⟨false, rfl, rfl⟩
  | edge1 => cases h; exact .inl ⟨true, rfl, rfl⟩
  | edge01 =>
    obtain ⟨o, k, hexec⟩ := exec_edge01_eq_appendBoth s
    rw [hexec] at h
    cases h
    exact .inr ⟨rfl, o, k, rfl⟩
  | _ => cases hi

/-- What every edge event leaves unchanged, and that it stamps `LAST` and gives no response. -/
theorem exec_edge_frame (hi : isEdge i = true) (h : exec i s = .next t) :
    t.params = s.params ∧ t.now = s.now ∧ t.inputs = s.inputs ∧ t.due = s.due ∧ t.last = s.now ∧ t.rsp = none := by
  obtain ⟨b, -, rfl⟩ | ⟨-, o, k, rfl⟩ := exec_edge_cases hi h <;> simp [State.noResponse]

/-- Only EDGE01 takes a free value. -/
theorem exec_edge_freeIx (hi : isEdge i = true) (hne : i ≠ .edge01) (h : exec i s = .next t) :
    t.freeIx = s.freeIx := by
  obtain ⟨b, -, rfl⟩ | ⟨heq, -⟩ := exec_edge_cases hi h
  · simp [State.noResponse]
  · exact absurd heq hne

/-- An edge event writes the cell at `LEN`, an EDGE01 also the next one, and never one at or above N (R22, R37). -/
theorem exec_edge_bufRead (hi : isEdge i = true) (h : exec i s = .next t) {j : Nat}
    (hj : j < s.len ∨ s.params.n ≤ j ∨ s.len < j ∧ i ≠ .edge01 ∨ s.len + 1 < j) : t.bufRead j = s.bufRead j := by
  obtain ⟨b, -, rfl⟩ | ⟨rfl, o, k, rfl⟩ := exec_edge_cases hi h
  · exact appendBit_bufRead b s (by omega)
  · exact appendBoth_bufRead o s (by simp only [ne_eq, not_true_eq_false, and_false, false_or] at hj; omega)

/-- Every instruction is passive, an edge event, or one of the two that clear the buffer. -/
theorem instr_kinds (i : Instr) : passive i = true ∨ isEdge i = true ∨ i = .reset ∨ ∃ m, i = .read m := by
  cases i <;> simp [passive, isEdge]

/-- No instruction writes the parameters or the ports. -/
theorem exec_keeps_ports (h : exec i s = .next t) : t.params = s.params ∧ t.inputs = s.inputs ∧ t.due = s.due := by
  obtain hi | hi | hi := instr_kinds i
  · rw [exec_passive_frame hi h]; exact ⟨rfl, rfl, rfl⟩
  · obtain ⟨hparams, -, hinputs, hdue, -⟩ := exec_edge_frame hi h
    exact ⟨hparams, hinputs, hdue⟩
  · rw [exec_clearing_frame hi h]; exact ⟨rfl, rfl, rfl⟩

/-- Only edge events, RESET and READ write `LEN`. -/
theorem exec_writes_len (h : exec i s = .next t) (hne : t.len ≠ s.len) :
    isEdge i = true ∨ i = .reset ∨ ∃ m, i = .read m := by
  refine (instr_kinds i).resolve_left fun hi => hne ?_
  rw [exec_passive_frame hi h]

/-- Only edge events write `BUF` and `LAST`. -/
theorem exec_keeps_buf_last (hi : ¬ isEdge i = true) (h : exec i s = .next t) : t.buf = s.buf ∧ t.last = s.last := by
  obtain hpassive | hedge | hclear := instr_kinds i
  · rw [exec_passive_frame hpassive h]; exact ⟨rfl, rfl⟩
  · exact absurd hedge hi
  · rw [exec_clearing_frame hclear h]; exact ⟨rfl, rfl⟩

/-- Only EDGE01 takes a free value, of all instructions. -/
theorem exec_keeps_freeIx (hne : i ≠ .edge01) (h : exec i s = .next t) : t.freeIx = s.freeIx := by
  obtain hi | hi | hi := instr_kinds i
  · rw [exec_passive_frame hi h]
  · exact exec_edge_freeIx hi hne h
  · rw [exec_clearing_frame hi h]

/-- No transition writes the parameters or the ports. -/
theorem perform_keeps_ports {x : Transition} (h : perform x s = .next t) :
    t.params = s.params ∧ t.inputs = s.inputs ∧ t.due = s.due := by
  cases x with
  | instr i => exact exec_keeps_ports h
  | illegal why => cases h; exact ⟨rfl, rfl, rfl⟩
  | powerOn => cases h; exact ⟨rfl, rfl, rfl⟩

/-- Every step that goes on keeps the parameters (R30). -/
theorem step_params (h : step s = .next t) : t.params = s.params := by
  obtain ⟨hparams, -⟩ := nextTransition_frame s
  obtain ⟨-, ⟨-, rfl⟩ | ⟨x, -, hperform⟩⟩ := step_cases h
  · exact hparams
  · obtain ⟨hkeeps, -⟩ := perform_keeps_ports hperform
    exact hkeeps.trans hparams

end

/-- Settles O28: the three only respond. -/
theorem queriesChangeOnlyTheResponse : Obligations.QueriesChangeOnlyTheResponse := by
  intro i s t hi h
  rw [exec_query_frame hi h]
  exact ⟨rfl, rfl, rfl, fun _ => rfl, rfl, rfl, rfl, rfl, rfl⟩

/-- Settles O29: the two write only `LEN` and the response. -/
theorem clearingCommandsChangeOnlyLenAndResponse : Obligations.ClearingCommandsChangeOnlyLenAndResponse := by
  intro i s t hi h
  rw [exec_clearing_frame hi h]
  exact ⟨rfl, rfl, fun _ => rfl, rfl, rfl, rfl, rfl, rfl, rfl⟩

/-- Settles O30: TICK's one answer. -/
theorem tickChangesOnlyNow : Obligations.TickChangesOnlyNow := by
  intro s t h
  rw [exec_tick] at h
  cases h
  exact ⟨rfl, rfl, rfl, fun _ => rfl, rfl, rfl, rfl, rfl, rfl⟩

/-- Settles O31: an edge event's appends write no other cell. -/
theorem edgeLeavesEveryOtherCellAlone : Obligations.EdgeLeavesEveryOtherCellAlone := by
  intro i s t hi h
  obtain ⟨hparams, hnow, hinputs, hdue, hlast, hrsp⟩ := exec_edge_frame hi h
  exact ⟨hparams, hnow, hinputs, hdue, hlast, hrsp, fun hne => exec_edge_freeIx hi hne h,
    fun j hj => exec_edge_bufRead hi h hj⟩

/-- Settles O32: power-on reset may write everything it does, an illegal word writes nothing, and the instructions are
settled element by element. -/
theorem onlyTheAccessTableWrites : Obligations.OnlyTheAccessTableWrites := by
  intro x s t h
  obtain ⟨hparams, hinputs, hdue⟩ := perform_keeps_ports h
  cases x with
  | powerOn => exact ⟨fun _ => .inl rfl, fun _ => .inl rfl, fun _ => .inl rfl, fun _ => .inl rfl, fun _ => .inl rfl,
      hparams, hinputs, hdue⟩
  | illegal why => cases h; exact ⟨absurd rfl, absurd rfl, absurd rfl, absurd rfl, absurd rfl, hparams, hinputs, hdue⟩
  | instr i =>
    refine ⟨fun hne => .inr ⟨i, rfl, exec_writes_len h hne⟩, fun hne => .inr ⟨i, rfl, ?buf⟩,
      fun hne => .inr ⟨i, rfl, ?last⟩, fun hne => .inr ?now, fun hne => .inr ?freeIx, hparams, hinputs, hdue⟩
    case buf => by_contra hi; exact hne (exec_keeps_buf_last hi h).1
    case last => by_contra hi; exact hne (exec_keeps_buf_last hi h).2
    case now =>
      have hnow := exec_now h
      by_contra hi
      exact hne (by simpa [show i ≠ .tick by simpa using hi] using hnow)
    case freeIx => by_contra hi; exact hne (exec_keeps_freeIx (by simpa using hi) h)

/-- Settles O40: neither what a step takes from the ports nor what it performs writes them. -/
theorem parametersNeverChange : Obligations.ParametersNeverChange := fun _ _ h => step_params h

end Sys2Proof.Machine
end

section
/-! PROOFS. What one step takes from the ports and performs (R44, R54, R106, R117), and runs over the port words of
instructions. -/

namespace Sys2Proof.Machine

/-- The legal parameters, condition by condition (R7, R119). -/
theorem Params.legal_iff (p : Params) :
    p.legal = true ↔ 1 ≤ p.n ∧ p.n ≤ 255 ∧ 1 ≤ p.tTicks ∧ 0 < p.tickPeriod := by
  simp only [Params.legal, Bool.and_eq_true, decide_eq_true_eq, and_assoc]

/-- The state with other samples to come and other transitions due. -/
def State.withPorts (xs : List Instant) (ds : List Transition) (s : State) : State := (s.setInputs xs).setDue ds

section
variable {s t : State} {i : Instr} (xs : List Instant) (ds : List Transition)

/-- The ports of a state put back. -/
theorem withPorts_self (hinputs : t.inputs = xs) (hdue : t.due = ds) : t.withPorts xs ds = t := by
  subst hinputs hdue
  rfl

/-- With nothing due, other samples to come are other ports. -/
theorem setInputs_eq_withPorts (hdue : s.due = []) : s.setInputs xs = s.withPorts xs [] :=
  (withPorts_self xs [] (t := s.setInputs xs) rfl hdue).symm

/-- An append neither reads nor writes the ports. -/
theorem appendBit_withPorts (b : Bool) (s : State) :
    (s.withPorts xs ds).appendBit b = (s.appendBit b).withPorts xs ds := by
  by_cases h : s.len < s.params.n
  · rw [appendBit_of_room b s h, appendBit_of_room b (s.withPorts xs ds) h]; rfl
  · rw [appendBit_of_full b s h, appendBit_of_full b (s.withPorts xs ds) h]; rfl

/-- Nor does any outcome of edges on both lines. -/
theorem appendBoth_withPorts (o : BothEdgeOutcome) (s : State) :
    (s.withPorts xs ds).appendBoth o = (s.appendBoth o).withPorts xs ds := by
  cases o <;> simp only [State.appendBoth, appendBit_withPorts]

/-- Nor does the outcome that the policy selects. -/
theorem appendByPolicy_withPorts (s : State) :
    (s.withPorts xs ds).appendByPolicy = s.appendByPolicy.withPorts xs ds := by
  have hparams : (s.withPorts xs ds).params = s.params := rfl
  unfold State.appendByPolicy
  rw [hparams]
  cases s.params.bothEdge <;> simp only [appendBoth_withPorts]
  rfl

/-- An instruction does the same whatever else stands on the ports or is still due, and leaves it there. -/
theorem exec_withPorts (h : exec i s = .next t) : exec i (s.withPorts xs ds) = .next (t.withPorts xs ds) := by
  cases i with
  | nop => cases h; rfl
  | pend => cases h; rfl
  | read m =>
    obtain hp | hp := Nat.eq_zero_or_pos s.pending
    · rw [exec_read_empty m hp] at h; cases h; exact exec_read_empty (s := s.withPorts xs ds) m hp
    · rw [exec_read_pending m hp] at h; cases h; exact exec_read_pending (s := s.withPorts xs ds) m hp
  | reset => cases h; rfl
  | decode d fin =>
    obtain hd | hd := Nat.lt_or_ge s.params.n d.toNat
    · rw [exec_decode_of_gt fin hd] at h; cases h; exact exec_decode_of_gt (s := s.withPorts xs ds) fin hd
    · rw [exec_decode_of_le fin hd] at h; cases h; exact exec_decode_of_le (s := s.withPorts xs ds) fin hd
  | edge0 => cases h; exact (exec_edgeOf false _).trans (by rw [appendBit_withPorts]; rfl)
  | edge1 => cases h; exact (exec_edgeOf true _).trans (by rw [appendBit_withPorts]; rfl)
  | edge01 => cases h; rw [exec_edge01, appendByPolicy_withPorts]; rfl
  | tick => cases h; rfl

end

section
variable {s t : State} {i : Instr}

/-- A step with one instruction still due performs it. -/
theorem step_of_due {tr : Transition} (hlegal : s.params.legal = true) (hdue : s.due = [tr]) :
    step s = perform tr (s.setDue []) := by
  rw [step_of_legal hlegal, nextTransition_of_due hdue (by simp)]
  rfl

/-- A step with nothing due and nothing presented waits (R44). -/
theorem step_of_idle (hlegal : s.params.legal = true) (hdue : s.due = []) (hinputs : s.inputs = []) :
    step s = .next s.noResponse := by
  rw [step_of_legal hlegal, nextTransition_of_idle hdue hinputs]
  rfl

/-- A step with nothing due on a sample that causes no transition waits (R44). -/
theorem step_of_empty_sample {x : Instant} {rest : List Instant} (hlegal : s.params.legal = true) (hdue : s.due = [])
    (hinputs : s.inputs = x :: rest) (hx : decodeInstant s.params.n x = []) :
    step s = .next (s.setInputs rest).noResponse := by
  have hnone : (s.setInputs rest).setDue [] = s.setInputs rest := (setInputs_eq_withPorts rest hdue).symm
  rw [step_of_legal hlegal, nextTransition_of_inputs hdue hinputs, hx, State.takeDue, hnone]
  rfl

/-- A 16-bit word of the opcode table that stands for an instruction is that instruction's command word. -/
theorem decodeInstant_of_decodeTableWord {w : Nat} (h : decodeTableWord 16 w = some i) :
    decodeInstant 32 (tableInstant 32 16 w) = [.instr i] := by
  have hcommand : tableInstant 32 16 w = commandInstant (BitVec.ofNat 16 w) (List.replicate 32 false) := rfl
  have hn : Params.default.n = 32 := rfl
  rw [decodeTableWord, Option.ite_none_left_eq_some, hn, hcommand, decodeInstant_commandInstant] at h
  obtain ⟨-, hfirst⟩ := h
  rw [hcommand, decodeInstant_commandInstant]
  cases hword : decodeCommand 32 ⟨BitVec.ofNat 16 w, List.replicate 32 false⟩ with
  | instr j => rw [hword] at hfirst; cases hfirst; rfl
  | illegal why => rw [hword] at hfirst; cases hfirst
  | powerOn => rw [hword] at hfirst; cases hfirst

/-- Of two or more transitions of one instant some one is performed, and the others stay due (R106). -/
theorem performNext_takeDue_of_several {ts : List Transition} (s : State) (h : 2 ≤ ts.length) :
    ∃ k x, ts[k]? = some x ∧
      performNext (State.takeDue ts s) = perform x ((s.setDue (ts.eraseIdx k)).setFreeIx (s.freeIx + 1)) := by
  obtain ⟨rfl, -⟩ | ⟨x, rfl, -⟩ | ⟨k, x, -, hk, htake⟩ := takeDue_cases s ts
  · simp at h
  · simp at h
  · exact ⟨k, x, hk, by rw [htake]; rfl⟩

/-- A step on a sample with `RST` asserted is the power-on reset, whatever else the sample carries (R117). -/
theorem step_of_rst {x : Instant} {rest : List Instant} (hlegal : s.params.legal = true) (hdue : s.due = [])
    (hinputs : s.inputs = x :: rest) (hrst : x.rst = true) : step s = .next (s.setInputs rest).powerOnReset :=
  (step_of_single hlegal hdue hinputs (tr := .powerOn) (by rw [decodeInstant, if_pos hrst])).trans rfl

/-- Two instructions in two steps, when the first step leaves the second instruction due. -/
theorem run_two_of_due {u : State} {a b : Instr} (hlegal : s.params.legal = true) (hdue : s.due = [])
    (hstep : step u = exec a (s.setDue [.instr b])) :
    (Host.Core.run core 2 u : Host.Outcome State Fault Refusal) = execAll [a, b] s := by
  obtain ⟨t, ht⟩ := exec_completes a s
  obtain ⟨v, hv⟩ := exec_completes b t
  obtain ⟨hparams, hinputs, hdue'⟩ := exec_keeps_ports ht
  have hfirst : step u = .next (t.withPorts s.inputs [.instr b]) := hstep.trans (exec_withPorts s.inputs _ ht)
  have hsecond : step (t.withPorts s.inputs [.instr b]) = .next v := by
    rw [← hv]
    refine (step_of_due (by rw [← hparams] at hlegal; exact hlegal) rfl).trans ?_
    exact congrArg (exec b) (withPorts_self s.inputs [] hinputs (hdue'.trans hdue))
  rw [run_succ, hfirst]
  simp only [run_succ, hsecond, execAll, ht, hv]
  rfl

/-- The port words of well-formed instructions, one after another, run as the instructions do. -/
theorem run_encode (is : List Instr) (s : State) (hlegal : s.params.legal = true) (hdue : s.due = [])
    (hwf : ∀ i ∈ is, i.wellFormed s.params.n = true) :
    (Host.Core.run core is.length (s.setInputs (is.map (encode s.params.n) ++ s.inputs)) :
      Host.Outcome State Fault Refusal) = execAll is s := by
  induction is generalizing s with
  | nil => rfl
  | cons i is ih =>
    obtain ⟨hi, his⟩ := List.forall_mem_cons.1 hwf
    obtain ⟨t, ht⟩ := exec_completes i s
    obtain ⟨hparams, hinputs, hdue'⟩ := exec_keeps_ports ht
    have hsample : step (s.setInputs ((i :: is).map (encode s.params.n) ++ s.inputs)) =
        exec i (s.setInputs (is.map (encode s.params.n) ++ s.inputs)) :=
      step_of_single (tr := .instr i) hlegal hdue rfl (decodeInstant_encode hi)
    have hstep : step (s.setInputs ((i :: is).map (encode s.params.n) ++ s.inputs)) =
        .next (t.setInputs (is.map (encode t.params.n) ++ t.inputs)) := by
      rw [hsample, hparams, hinputs, setInputs_eq_withPorts _ hdue, setInputs_eq_withPorts _ (hdue'.trans hdue)]
      exact exec_withPorts _ [] ht
    rw [List.length_cons, run_succ, hstep]
    simp only [execAll, ht]
    exact ih t (by rwa [hparams]) (hdue'.trans hdue) (by rwa [hparams])

end

/-- Settles O57: the headline run from the state that holds the rest of the samples. -/
theorem encodedInstructionsRunAsTheirMeanings : Obligations.EncodedInstructionsRunAsTheirMeanings :=
  fun is s rest hlegal hdue hwf => run_encode is (s.setInputs rest) hlegal hdue hwf

/-- Settles O33: the ways a step takes one instruction, or none. -/
theorem stepRunsTheDecodedInstruction : Obligations.StepRunsTheDecodedInstruction := by
  intro s hlegal
  refine ⟨fun x rest i hdue hinputs hx => step_of_single hlegal hdue hinputs hx, fun i hdue => step_of_due hlegal hdue,
    step_of_idle hlegal, fun x rest hdue hinputs hx => step_of_empty_sample hlegal hdue hinputs hx,
    fun w i hn hword => ?_⟩
  refine step_of_single (s := s.withFetchWord 16 w) hlegal rfl rfl (tr := .instr i) ?_
  have hsample : decodeInstant 32 (tableInstant 32 16 w) = [.instr i] := decodeInstant_of_decodeTableWord hword
  rw [← hn] at hsample
  exact hsample

/-- Settles O34: the transitions still due and those of the next sample are taken alike. -/
theorem stepPerformsSomeTransitionOfTheInstant : Obligations.StepPerformsSomeTransitionOfTheInstant := by
  intro s ts hlegal hlength
  refine ⟨fun hdue => ?due, fun y rest hdue hinputs hy => ?sample⟩
  case due =>
    have hne : ts ≠ [] := fun h => by simp [h] at hlength
    rw [step_of_legal hlegal, nextTransition_of_due hdue hne]
    exact performNext_takeDue_of_several s hlength
  case sample =>
    rw [step_of_legal hlegal, nextTransition_of_inputs hdue hinputs, hy]
    exact performNext_takeDue_of_several (s.setInputs rest) hlength

/-- Settles O35: the step takes the edge or the TICK, and the next one what stayed due. -/
theorem edgeAndTickRunInOneOfTwoOrders : Obligations.EdgeAndTickRunInOneOfTwoOrders := by
  intro s e i rest hlegal hdue hinputs he
  have hsample : decodeInstant s.params.n (eventInstant e) = [.instr i, .instr .tick] := by
    rw [decodeInstant_eventInstant, he]; rfl
  obtain ⟨-, hstep⟩ := stepPerformsSomeTransitionOfTheInstant s [.instr i, .instr .tick] hlegal le_rfl
  obtain ⟨k, x, hk, hperform⟩ := hstep _ rest hdue hinputs hsample
  match k with
  | 0 =>
    cases hk
    exact ⟨[i, .tick], by simp, run_two_of_due hlegal hdue hperform⟩
  | 1 =>
    cases hk
    exact ⟨[.tick, i], by simp, run_two_of_due hlegal hdue hperform⟩

/-- Settles O36: the step is the power-on reset, which empties the buffer. -/
theorem powerOnResetClearsAndTakesNothing : Obligations.PowerOnResetClearsAndTakesNothing := by
  intro s x rest hlegal hdue hinputs hrst
  have hstep := step_of_rst hlegal hdue hinputs hrst
  refine ⟨⟨_, hstep, rfl, rfl, rfl, rfl, rfl, hdue, rfl, powerOnReset_bufferWf (s.setInputs rest)⟩, fun y hy => ?_⟩
  exact (step_of_rst (s := s.setInputs (y :: rest)) hlegal hdue rfl hy).trans hstep.symm

/-- Settles O39: with legal parameters every step completes. -/
theorem onlyIllegalParametersAreRefused : Obligations.OnlyIllegalParametersAreRefused := by
  intro s r
  rw [← Params.legal_iff]
  by_cases hlegal : s.params.legal = true
  · obtain ⟨t, ht⟩ := performNext_completes s.nextTransition
    simp [step, hlegal, ht]
  · simp [step, hlegal, eq_comm]

end Sys2Proof.Machine
end

section
/-! PROOFS. Quiet time: the quiet counter (R29), the phase after every transition (R86), frames becoming ready (R79),
and what the order of two transitions of one instant changes (R107, R124). -/

namespace Sys2Proof.Machine

section
variable {s t : State} {i : Instr}

/-- The first of several instructions, then the rest. -/
theorem execAll_cons (is : List Instr) (h : exec i s = .next t) : execAll (i :: is) s = execAll is t := by
  rw [execAll, h]

/-- A list of instructions, then another. -/
theorem execAll_append (is js : List Instr) (h : execAll is s = .next t) : execAll (is ++ js) s = execAll js t := by
  induction is generalizing s with
  | nil => cases h; rfl
  | cons i is ih =>
    obtain ⟨u, hu⟩ := exec_completes i s
    rw [execAll_cons is hu] at h
    rw [List.cons_append, execAll_cons _ hu, ih h]

/-- One more tick when the instruction is a TICK. -/
theorem ticksIn_cons (i : Instr) (is : List Instr) : ticksIn (i :: is) = (if i = .tick then 1 else 0) + ticksIn is := by
  simp [ticksIn, List.count_cons, Nat.add_comm]

/-- Passive instructions, one after another, only advance `NOW` by their ticks and drive the response port. -/
theorem execAll_passive {is : List Instr} (hpassive : ∀ i ∈ is, passive i = true) (s : State) :
    ∃ u, execAll is s = .next u ∧ u = { s with now := s.now + ticksIn is, rsp := u.rsp } := by
  induction is generalizing s with
  | nil => exact ⟨s, rfl, rfl⟩
  | cons i is ih =>
    obtain ⟨hi, his⟩ := List.forall_mem_cons.1 hpassive
    obtain ⟨t, ht⟩ := exec_completes i s
    obtain ⟨u, hu, hframe⟩ := ih his t
    have hnow : t.now + ticksIn is = s.now + ticksIn (i :: is) := by
      rw [exec_now ht, ticksIn_cons]; split <;> omega
    refine ⟨u, by rw [execAll_cons is ht, hu], ?_⟩
    rw [hframe, hnow, exec_passive_frame hi ht]

/-- The edge event of a bit is one. -/
@[simp] theorem isEdge_edgeOf (b : Bool) : isEdge (edgeOf b) = true := by cases b <;> rfl

/-- After an edge event no time has passed since the last one. -/
theorem exec_edge_elapsed (hi : isEdge i = true) (h : exec i s = .next t) : t.elapsed = 0 := by
  obtain ⟨-, hnow, -, -, hlast, -⟩ := exec_edge_frame hi h
  rw [State.elapsed, hnow, hlast, Nat.sub_self]

/-- After an append bits are held, as the capacity is at least one. -/
theorem appendBit_len_pos (b : Bool) (hn : 1 ≤ s.params.n) : 0 < (s.appendBit b).len := by
  rw [appendBit_len]; split <;> omega

/-- After either outcome of edges on both lines bits are held. -/
theorem appendBoth_len_pos (o : BothEdgeOutcome) (hn : 1 ≤ s.params.n) : 0 < (s.appendBoth o).len := by
  cases o with
  | order01 => exact (appendBit_len_pos _ hn).trans_le (len_le_appendBit_len _ _)
  | order10 => exact (appendBit_len_pos _ hn).trans_le (len_le_appendBit_len _ _)
  | keep0 => exact appendBit_len_pos _ hn
  | keep1 => exact appendBit_len_pos _ hn

/-- A legal capacity is at least 1. -/
theorem State.Inv.one_le_n (h : s.Inv) : 1 ≤ s.params.n := by
  obtain ⟨hn, -⟩ := (Params.legal_iff _).1 h.legal
  exact hn

/-- A legal threshold is at least 1. -/
theorem State.Inv.one_le_tTicks (h : s.Inv) : 1 ≤ s.params.tTicks := by
  obtain ⟨-, -, ht, -⟩ := (Params.legal_iff _).1 h.legal
  exact ht

/-- After an edge event bits are held. -/
theorem exec_edge_len_pos (hinv : s.Inv) (hi : isEdge i = true) (h : exec i s = .next t) : 0 < t.len := by
  obtain ⟨b, -, rfl⟩ | ⟨-, o, k, rfl⟩ := exec_edge_cases hi h
  · exact appendBit_len_pos b hinv.one_le_n
  · exact appendBoth_len_pos o hinv.one_le_n

/-- Every edge event leads to Accumulating. -/
theorem exec_edge_phase (hinv : s.Inv) (hi : isEdge i = true) (h : exec i s = .next t) : t.phase = .accumulating := by
  obtain ⟨hparams, -⟩ := exec_edge_frame hi h
  rw [phase_eq_accumulating_iff, exec_edge_elapsed hi h, hparams]
  exact ⟨exec_edge_len_pos hinv hi h, hinv.one_le_tTicks⟩

/-- Outside Ready nothing is pending (R85). -/
theorem pending_eq_zero_iff_phase (s : State) : s.pending = 0 ↔ s.phase ≠ .ready := by
  rw [pending_eq_zero_iff, Ne, phase_eq_ready_iff]

/-- In Ready the pending frame is the whole buffer. -/
theorem pending_of_phase_ready (h : s.phase = .ready) : 0 < s.pending ∧ s.pending = s.len := by
  have hpos : 0 < s.pending := (pending_pos_iff s).2 ((phase_eq_ready_iff s).1 h)
  exact ⟨hpos, pending_eq_len s hpos⟩

/-- A TICK leads from Accumulating to Ready when it brings the quiet time to the threshold, and keeps the phase
otherwise. -/
theorem exec_tick_phase (hinv : s.Inv) (h : exec .tick s = .next t) :
    t.phase = if s.phase = .accumulating ∧ s.now + 1 - s.last = s.params.tTicks then .ready else s.phase := by
  have helapsed : 0 < s.len → s.now + 1 - s.last = s.elapsed + 1 := fun hpos => Nat.sub_add_comm (hinv.last_le hpos)
  have ht : t.len = s.len ∧ t.params = s.params ∧ t.elapsed = s.now + 1 - s.last := by cases h; exact ⟨rfl, rfl, rfl⟩
  obtain ⟨hlen, hparams, hnow⟩ := ht
  obtain ⟨hp, hempty⟩ | ⟨hp, hpos, hquiet⟩ | ⟨hp, hpos, hquiet⟩ := phase_cases s
  · rw [hp, if_neg (by simp), phase_eq_idle_iff, hlen, hempty]
  · rw [hp]
    split
    next hreached =>
      obtain ⟨-, hthreshold⟩ := hreached
      rw [phase_eq_ready_iff, hlen, hparams, hnow]
      exact ⟨hpos, hthreshold.ge⟩
    next hshort =>
      rw [phase_eq_accumulating_iff, hlen, hparams, hnow]
      have hne : s.now + 1 - s.last ≠ s.params.tTicks := fun heq => hshort ⟨rfl, heq⟩
      have := helapsed hpos
      omega
  · rw [hp, if_neg (by simp), phase_eq_ready_iff, hlen, hparams, hnow]
    have := helapsed hpos
    omega

/-- A READ leads from Ready to Idle and keeps the phase otherwise. -/
theorem exec_read_phase {m : BitCount} (h : exec (.read m) s = .next t) :
    t.phase = if s.phase = .ready then .idle else s.phase := by
  split
  next hready =>
    obtain ⟨hpos, -⟩ := pending_of_phase_ready hready
    obtain ⟨hlen, -⟩ := exec_read_drains hpos h
    exact (phase_eq_idle_iff t).2 hlen
  next hne =>
    rw [exec_read_empty m ((pending_eq_zero_iff_phase s).2 hne)] at h
    cases h
    rfl

/-- A passive instruction is no edge event. -/
theorem not_isEdge_of_passive (hi : passive i = true) : ¬ isEdge i = true := by
  cases i <;> simp_all [passive, isEdge]

/-- RESET and READ are no edge events and no TICK. -/
theorem not_isEdge_of_clearing (hi : i = .reset ∨ ∃ m, i = .read m) : ¬ isEdge i = true ∧ i ≠ .tick := by
  obtain rfl | ⟨m, rfl⟩ := hi <;> simp [isEdge]

/-- The quiet counter after an instruction that is no edge event and no TICK. -/
theorem quietNext_other (T q : Nat) (hedge : ¬ isEdge i = true) (htick : i ≠ .tick) : quietNext T i q = q := by
  rw [quietNext, if_neg hedge, if_neg htick]

/-- A quiet counter that stands for `LAST` and `NOW` gives the pending count (R29, R79). -/
theorem pending_of_quietStandsFor {q : Nat} (h : quietStandsFor s q) :
    s.pending = if s.len = 0 then 0 else if q = s.params.tTicks then s.len else 0 := by
  obtain ⟨-, hq⟩ := h
  unfold State.pending
  split
  next => rfl
  next hheld =>
    have hmin := hq (Nat.pos_of_ne_zero hheld)
    exact if_congr (by omega) rfl rfl

/-- The quiet counter follows every instruction (R29): an edge event restarts it, a TICK advances it up to the
threshold, and
what empties the buffer frees it of what it stands for. -/
theorem quietStandsFor_exec {q : Nat} (hinv : s.Inv) (hq : quietStandsFor s q) (h : exec i s = .next t) :
    quietStandsFor t (quietNext s.params.tTicks i q) := by
  obtain ⟨hle, hheld⟩ := hq
  obtain ⟨hparams, -⟩ := exec_keeps_ports h
  obtain hi | hi | hi := instr_kinds i
  · by_cases htick : i = .tick
    · subst htick
      have hnext : quietNext s.params.tTicks .tick q = min (q + 1) s.params.tTicks := rfl
      have hlen : t.len = s.len := by cases h; rfl
      rw [quietStandsFor, hnext, hparams, hlen]
      refine ⟨Nat.min_le_right _ _, fun hpos => ?_⟩
      rw [exec_tick_elapsed (hinv.last_le hpos) h, hheld hpos]
      omega
    · have hnow := exec_now h
      rw [if_neg htick] at hnow
      rw [quietNext_other _ _ (not_isEdge_of_passive hi) htick, exec_passive_frame hi h, hnow]
      exact ⟨hle, hheld⟩
  · have hnext : quietNext s.params.tTicks i q = 0 := if_pos hi
    rw [quietStandsFor, hnext, exec_edge_elapsed hi h]
    exact ⟨Nat.zero_le _, fun _ => (Nat.zero_min _).symm⟩
  · obtain ⟨hedge, htick⟩ := not_isEdge_of_clearing hi
    rw [quietNext_other _ _ hedge htick, exec_clearing_frame hi h]
    refine ⟨hle, fun hpos => hheld ?_⟩
    dsimp only at hpos
    split at hpos
    · exact absurd hpos (Nat.lt_irrefl 0)
    · exact hpos

end

/-- Settles O55: the pending count by the counter, and the counter kept over every kind of instruction. -/
theorem quietCounterStandsForLastAndNow : Obligations.QuietCounterStandsForLastAndNow :=
  fun _ _ _ _ hinv hq => ⟨pending_of_quietStandsFor hq, fun h => quietStandsFor_exec hinv hq h⟩

/-- Settles O42: the pending count's definition; the three queries only respond. -/
theorem pendingIsZeroOrTheLength : Obligations.PendingIsZeroOrTheLength := by
  intro s
  refine ⟨?zeroOrLen, (pending_le_len s).trans, fun hyoung => ?young, fun i t h hi => ?queries⟩
  case zeroOrLen => exact (Nat.eq_zero_or_pos s.pending).imp_right (pending_eq_len s)
  case young => exact (pending_eq_zero_iff s).2 fun hquiet => absurd hyoung (Nat.not_lt.mpr hquiet.2)
  case queries =>
    rw [exec_query_frame (or_left_comm.1 hi) h]
    rfl

/-- Settles O44: the phase after each kind of instruction; an illegal word only responds. -/
theorem phaseMachineFollowsItsTable : Obligations.PhaseMachineFollowsItsTable := by
  refine ⟨fun i s t hinv h => ?_, fun why s t h => by cases h; rfl⟩
  cases i with
  | edge0 => exact exec_edge_phase hinv rfl h
  | edge1 => exact exec_edge_phase hinv rfl h
  | edge01 => exact exec_edge_phase hinv rfl h
  | tick => exact exec_tick_phase hinv h
  | read m => exact exec_read_phase h
  | reset => cases h; rfl
  | pend => cases h; rfl
  | nop => cases h; rfl
  | decode d fin => rw [exec_query_frame (.inr (.inr ⟨d, fin, rfl⟩)) h]; rfl

/-- Settles O46: passive instructions keep the bits and advance `NOW` by their ticks, which then are the quiet time. -/
theorem frameIsReadyExactlyAfterTheQuietPeriod : Obligations.FrameIsReadyExactlyAfterTheQuietPeriod := by
  intro s t i is hinv hi h hpassive
  obtain ⟨hparams, hnow, -, -, hlast, -⟩ := exec_edge_frame hi h
  obtain ⟨u, hu, hframe⟩ := execAll_passive hpassive t
  have hlen : u.len = t.len := by rw [hframe]
  have hulast : u.last = s.now := by rw [hframe]; exact hlast
  have hunow : u.now = s.now + ticksIn is := by rw [hframe, hnow]
  have huparams : u.params = s.params := by rw [hframe]; exact hparams
  have helapsed : u.elapsed = ticksIn is := by rw [State.elapsed, hunow, hulast, Nat.add_sub_cancel_left]
  refine ⟨u, hu, ?_, hlen, by rw [hframe], hulast, hunow⟩
  rw [ready_iff, hlen, huparams, helapsed]
  exact and_iff_right (exec_edge_len_pos hinv hi h)

end Sys2Proof.Machine
end

section
/-! PROOFS. An edge on a complete frame (R124), and the order of two transitions of one instant (R107). -/

namespace Sys2Proof.Machine

section
variable {s t : State}

/-- `LEN` after an append, in one formula. -/
theorem appendBit_len_eq_min (b : Bool) (hlen : s.len ≤ s.params.n) :
    (s.appendBit b).len = min (s.len + 1) s.params.n := by
  rw [appendBit_len]; split <;> omega

/-- A bit that finds room is read back from the cell at the old `LEN`. -/
theorem appendBit_bufRead_len (b : Bool) (hinv : s.Inv) (hroom : s.len < s.params.n) :
    (s.appendBit b).bufRead s.len = b := by
  rw [appendBit_of_room b s hroom]
  exact bufRead_bufWrite_same b s (hroom.trans_eq hinv.buf_length.symm)

/-- An edge on an empty buffer is its first bit. -/
theorem exec_edgeOf_of_empty (b : Bool) (hinv : s.Inv) (hempty : s.len = 0) (h : exec (edgeOf b) s = .next t) :
    t.len = 1 ∧ t.bufRead 0 = b := by
  have hroom : s.len < s.params.n := by have := hinv.one_le_n; omega
  rw [exec_edgeOf] at h
  cases h
  refine ⟨?_, ?_⟩
  · exact (appendBit_len b s).trans (by rw [if_pos hroom, hempty])
  · rw [← hempty]; exact appendBit_bufRead_len b hinv hroom

/-- PEND answers the pending count (R81). -/
theorem exec_pend_answers {c : Nat} (hc : s.pending = c) :
    ∃ t r, exec .pend s = .next t ∧ t.rsp = some r ∧ r.count = BitVec.ofNat 8 c :=
  ⟨_, _, rfl, rfl, by rw [← hc]; rfl⟩

/-- `LEN` fits the 8 bits of `RSP_COUNT` (R62). -/
theorem toNat_ofNat_len (hinv : s.Inv) : (BitVec.ofNat 8 s.len).toNat = s.len := by
  have hn : s.params.n ≤ 255 := n_le_of_legal hinv.legal
  have hlen : s.len ≤ s.params.n := hinv.len_le
  rw [BitVec.toNat_ofNat, Nat.mod_eq_of_lt (by omega)]

/-- After an edge event nothing is pending. -/
theorem exec_edgeOf_pending (b : Bool) (hinv : s.Inv) (h : exec (edgeOf b) s = .next t) : t.pending = 0 := by
  rw [pending_eq_zero_iff_phase, exec_edge_phase hinv (isEdge_edgeOf b) h]
  simp

end

section
variable {s : State} (b : Bool) (m : BitCount)

/-- An edge before a READ: the frame has grown by the edge's bit, and the READ finds nothing. -/
theorem edge_then_read (hinv : s.Inv) :
    ∃ t u, exec (edgeOf b) s = .next t ∧ exec (.read m) t = .next u ∧ u.len = min (s.len + 1) s.params.n ∧
      ∃ r, u.rsp = some r ∧ r.count = 0 :=
  ⟨_, _, exec_edgeOf b s, exec_read_empty m (exec_edgeOf_pending b hinv (exec_edgeOf b s)),
    appendBit_len_eq_min b hinv.len_le, _, rfl, rfl⟩

/-- An edge after a READ: the READ drains the frame, and the edge starts the next one. -/
theorem read_then_edge (hinv : s.Inv) (hready : s.phase = .ready) :
    ∃ t u, exec (.read m) s = .next t ∧ exec (edgeOf b) t = .next u ∧ u.len = 1 ∧ u.bufRead 0 = b ∧
      ∃ r, t.rsp = some r ∧ r.count.toNat = s.len := by
  obtain ⟨hpos, -⟩ := pending_of_phase_ready hready
  have hread := exec_read_pending m hpos
  obtain ⟨hlen, hbit⟩ := exec_edgeOf_of_empty b (exec_inv hinv hread) rfl (exec_edgeOf b _)
  exact ⟨_, _, hread, exec_edgeOf b _, hlen, hbit, _, rfl, toNat_ofNat_len hinv⟩

/-- An edge before a PEND: the frame is no longer pending. -/
theorem edge_then_pend (hinv : s.Inv) :
    ∃ t u r, exec (edgeOf b) s = .next t ∧ exec .pend t = .next u ∧ u.rsp = some r ∧ r.count = 0 := by
  obtain ⟨u, r, hexec, hrsp, hcount⟩ := exec_pend_answers (exec_edgeOf_pending b hinv (exec_edgeOf b s))
  exact ⟨_, u, r, exec_edgeOf b s, hexec, hrsp, hcount⟩

/-- PEND in Ready answers `LEN`. -/
theorem pend_of_ready (hinv : s.Inv) (hready : s.phase = .ready) :
    ∃ t r, exec .pend s = .next t ∧ t.rsp = some r ∧ r.count.toNat = s.len := by
  obtain ⟨-, hpending⟩ := pending_of_phase_ready hready
  obtain ⟨t, r, hexec, hrsp, hcount⟩ := exec_pend_answers hpending
  exact ⟨t, r, hexec, hrsp, by rw [hcount, toNat_ofNat_len hinv]⟩

/-- An edge before a RESET: its bit is cleared too. -/
theorem edge_then_reset (s : State) : ∃ t, execAll [edgeOf b, .reset] s = .next t ∧ t.len = 0 := by
  refine ⟨(s.appendBit b).noResponse.clearLen.respondOk, ?_, rfl⟩
  rw [execAll_cons _ (exec_edgeOf b s)]
  rfl

/-- An edge after a RESET starts a frame. -/
theorem reset_then_edge (hinv : s.Inv) :
    ∃ t, execAll [.reset, edgeOf b] s = .next t ∧ t.len = 1 ∧ t.bufRead 0 = b := by
  have hreset : exec .reset s = .next s.clearLen.respondOk := rfl
  refine ⟨_, ?_, exec_edgeOf_of_empty b (exec_inv hinv hreset) rfl (exec_edgeOf b _)⟩
  rw [execAll_cons _ hreset, execAll_cons _ (exec_edgeOf b _)]
  rfl

/-- PEND one tick before the threshold: nothing is pending yet, and after a TICK the whole frame is. -/
theorem tick_and_pend_at_threshold (hinv : s.Inv) (hpos : 0 < s.len) (hlast : s.now + 1 - s.last = s.params.tTicks) :
    (∃ t r, execAll [.tick, .pend] s = .next t ∧ t.rsp = some r ∧ r.count.toNat = s.len) ∧
      ∃ t r, exec .pend s = .next t ∧ t.rsp = some r ∧ r.count = 0 := by
  have helapsed : s.elapsed + 1 = s.params.tTicks := (Nat.sub_add_comm (hinv.last_le hpos)).symm.trans hlast
  have hacc : s.phase = .accumulating := (phase_eq_accumulating_iff s).2 ⟨hpos, by omega⟩
  have hready := exec_tick_phase hinv (exec_tick s)
  rw [if_pos ⟨hacc, hlast⟩] at hready
  obtain ⟨t, r, hexec, hrsp, hcount⟩ := pend_of_ready (exec_inv hinv (exec_tick s)) hready
  refine ⟨⟨t, r, ?_, hrsp, hcount⟩, exec_pend_answers ((pending_eq_zero_iff_phase s).2 (by simp [hacc]))⟩
  rw [execAll_cons _ (exec_tick s), execAll_cons _ hexec]
  rfl

/-- A TICK before an edge moves the edge's time stamp by one. -/
theorem tick_and_edge (s : State) :
    (∃ t, execAll [.tick, edgeOf b] s = .next t ∧ t.last = s.now + 1 ∧ t.now = s.now + 1) ∧
      ∃ t, execAll [edgeOf b, .tick] s = .next t ∧ t.last = s.now ∧ t.now = s.now + 1 := by
  refine ⟨⟨_, by rw [execAll_cons _ (exec_tick s), execAll_cons _ (exec_edgeOf b _)]; rfl, ?_, ?_⟩,
    ⟨_, by rw [execAll_cons _ (exec_edgeOf b s), execAll_cons _ (exec_tick _)]; rfl, ?_, ?_⟩⟩
  · exact appendBit_last b { s with now := s.now + 1, rsp := none }
  · exact appendBit_now b { s with now := s.now + 1, rsp := none }
  · exact appendBit_last b s
  · exact congrArg (· + 1) (appendBit_now b s)

end

/-- Settles O47: the edge leads to Accumulating, and its append leaves the held bits alone. -/
theorem edgeOnAReadyFrameMergesIntoIt : Obligations.EdgeOnAReadyFrameMergesIntoIt := by
  intro s b hinv _
  have hexec := exec_edgeOf b s
  exact ⟨_, hexec, exec_edge_phase hinv (isEdge_edgeOf b) hexec, rfl, appendBit_last b s,
    appendBit_len_eq_min b hinv.len_le, fun j hj => appendBit_bufRead_ne b s (by omega), appendBit_bufRead_len b hinv⟩

/-- Settles O48: each pair of transitions in both orders. -/
theorem orderOfOneInstantChangesTheResult : Obligations.OrderOfOneInstantChangesTheResult := by
  intro s b m hinv
  exact ⟨fun hready => ⟨edge_then_read b m hinv, read_then_edge b m hinv hready, edge_then_pend b hinv,
      pend_of_ready hinv hready⟩,
    ⟨edge_then_reset b s, reset_then_edge b hinv⟩, tick_and_pend_at_threshold hinv, tick_and_edge b s⟩

end Sys2Proof.Machine
end

section
/-! PROOFS. The bits held: the first N delivered since the buffer was cleared (R23, R77), and a frame read exactly once
(R91). -/

namespace Sys2Proof.Machine

/-- The bits the buffer holds (R23): its first `LEN` cells. -/
def State.held (s : State) : FrameBits := s.buf.take s.len

/-- Cutting a list to n elements before something follows it, or only afterwards, comes to the same first n. -/
theorem take_take_append {α : Type} (n : Nat) (l m : List α) : (l.take n ++ m).take n = (l ++ m).take n := by
  obtain h | h := Nat.le_total l.length n
  · rw [List.take_of_length_le h]
  · rw [List.take_append_of_le_length (by simp [h]), List.take_take, Nat.min_self, List.take_append_of_le_length h]

section
variable {s t : State} {i : Instr} {o : BothEdgeOutcome}

/-- `LEN` bits are held. -/
theorem held_length (hinv : s.Inv) : s.held.length = s.len := by
  rw [State.held, List.length_take, hinv.buf_length, Nat.min_eq_left hinv.len_le]

/-- No more than N bits are held. -/
theorem held_take (hinv : s.Inv) : s.held.take s.params.n = s.held :=
  List.take_of_length_le (by rw [held_length hinv]; exact hinv.len_le)

/-- After an append the bits held are the first N of those held before followed by the new one. -/
theorem appendBit_held (b : Bool) (hinv : s.Inv) : (s.appendBit b).held = (s.held ++ [b]).take s.params.n := by
  have hlength := held_length hinv
  by_cases hroom : s.len < s.params.n
  · have hcell : s.len < s.buf.length := hroom.trans_eq hinv.buf_length.symm
    have hstored : (s.buf.set s.len b).take (s.len + 1) = s.held ++ [b] := by
      simp [List.take_add_one, List.take_set_of_le, State.held, hcell]
    rw [List.take_of_length_le (by rw [List.length_append, hlength, List.length_singleton]; exact hroom), ← hstored,
      appendBit_of_room b s hroom]
    rfl
  · have hfull : s.held.length = s.params.n := by have := hinv.len_le; omega
    rw [List.take_left' hfull, appendBit_of_full b s hroom]
    rfl

/-- After the appends of one outcome the bits held are the first N of those before followed by the outcome's. -/
theorem appendBoth_held (o : BothEdgeOutcome) (hinv : s.Inv) :
    (s.appendBoth o).held = (s.held ++ outcomeBits o).take s.params.n := by
  have htwo : ∀ b c, ((s.appendBit b).appendBit c).held = (s.held ++ [b, c]).take s.params.n := by
    intro b c
    rw [appendBit_held c (appendBit_inv b s hinv), appendBit_params, appendBit_held b hinv, take_take_append,
      List.append_assoc, List.singleton_append]
  cases o with
  | order01 => exact htwo false true
  | order10 => exact htwo true false
  | keep0 => exact appendBit_held false hinv
  | keep1 => exact appendBit_held true hinv

/-- A passive instruction delivers no bit. -/
theorem edgeBits_of_passive (hi : passive i = true) : edgeBits o i = [] := by
  cases i with
  | nop => rfl
  | pend => rfl
  | decode d fin => rfl
  | tick => rfl
  | _ => cases hi

/-- The edge event of a bit delivers it. -/
theorem edgeBits_edgeOf (b : Bool) : edgeBits o (edgeOf b) = [b] := by cases b <;> rfl

/-- After an instruction that clears nothing, the bits held are the first N of those before followed by those it
delivers; the outcome matters to an EDGE01 alone. -/
theorem exec_held (hinv : s.Inv) (hi : passive i = true ∨ isEdge i = true)
    (hpolicy : i = .edge01 → s.params.bothEdge = outcomePolicy o) (h : exec i s = .next t) :
    t.held = (s.held ++ edgeBits o i).take s.params.n := by
  obtain hi | hi := hi
  · rw [edgeBits_of_passive hi, List.append_nil, held_take hinv, exec_passive_frame hi h]
    rfl
  · obtain ⟨b, rfl, rfl⟩ | ⟨rfl, -⟩ := exec_edge_cases hi h
    · rw [edgeBits_edgeOf, ← appendBit_held b hinv]
      rfl
    · rw [exec_edge01_of_outcomePolicy o s (hpolicy rfl), execAll_outcomeBits] at h
      cases h
      exact appendBoth_held o hinv

/-- The same over any sequence of such instructions. -/
theorem execAll_held (is : List Instr) (hinv : s.Inv) (his : ∀ i ∈ is, passive i = true ∨ isEdge i = true)
    (hpolicy : .edge01 ∈ is → s.params.bothEdge = outcomePolicy o) :
    ∃ t, execAll is s = .next t ∧ t.Inv ∧ t.params = s.params ∧
      t.held = (s.held ++ is.flatMap (edgeBits o)).take s.params.n := by
  induction is generalizing s with
  | nil => exact ⟨s, rfl, hinv, rfl, by rw [List.flatMap_nil, List.append_nil, held_take hinv]⟩
  | cons i is ih =>
    obtain ⟨hi, his⟩ := List.forall_mem_cons.1 his
    obtain ⟨u, hu⟩ := exec_completes i s
    obtain ⟨huparams, -⟩ := exec_keeps_ports hu
    obtain ⟨t, ht, htinv, htparams, hheld⟩ :=
      ih (exec_inv hinv hu) his (fun hmem => by rw [huparams]; exact hpolicy (List.mem_cons_of_mem i hmem))
    refine ⟨t, by rw [execAll_cons is hu, ht], htinv, htparams.trans huparams, ?_⟩
    rw [hheld, huparams, exec_held hinv hi (fun heq => hpolicy (heq ▸ List.mem_cons_self)) hu, take_take_append,
      List.flatMap_cons, List.append_assoc]

/-- The trace of a frame holds passive instructions and single edges only. -/
theorem mem_frameTrace {fs : List (Bool × List Instr)} (hpassive : ∀ f ∈ fs, ∀ i ∈ f.2, passive i = true)
    (hi : i ∈ frameTrace fs) : passive i = true ∨ ∃ b, i = edgeOf b := by
  obtain ⟨f, hf, hmem⟩ := List.mem_flatMap.1 hi
  obtain rfl | hmem := List.mem_cons.1 hmem
  · exact .inr ⟨f.1, rfl⟩
  · exact .inl (hpassive f hf i hmem)

/-- The trace of a frame has no edges on both lines at once. -/
theorem edge01_notMem_frameTrace {fs : List (Bool × List Instr)} (hpassive : ∀ f ∈ fs, ∀ i ∈ f.2, passive i = true) :
    .edge01 ∉ frameTrace fs := by
  intro h
  obtain hi | ⟨b, hb⟩ := mem_frameTrace hpassive h
  · cases hi
  · cases b <;> cases hb

/-- The trace of a frame delivers the frame's bits. -/
theorem frameTrace_edgeBits {fs : List (Bool × List Instr)} (hpassive : ∀ f ∈ fs, ∀ i ∈ f.2, passive i = true) :
    (frameTrace fs).flatMap (edgeBits o) = fs.map Prod.fst := by
  induction fs with
  | nil => rfl
  | cons f fs ih =>
    obtain ⟨hf, hfs⟩ := List.forall_mem_cons.1 hpassive
    have hquiet : f.2.flatMap (edgeBits o) = [] := List.flatMap_eq_nil_iff.2 fun i hi => edgeBits_of_passive (hf i hi)
    have htail : frameTrace (f :: fs) = edgeOf f.1 :: f.2 ++ frameTrace fs := rfl
    rw [htail, List.flatMap_append, ih hfs, List.flatMap_cons, hquiet, edgeBits_edgeOf, List.append_nil]
    rfl

/-- After the trace of a frame, from an empty buffer, the first N bits of the frame are held. -/
theorem execAll_frameTrace {fs : List (Bool × List Instr)} (hinv : s.Inv) (hempty : s.len = 0)
    (hpassive : ∀ f ∈ fs, ∀ i ∈ f.2, passive i = true) :
    ∃ t, execAll (frameTrace fs) s = .next t ∧ t.Inv ∧ t.params = s.params ∧
      t.held = (fs.map Prod.fst).take s.params.n := by
  have hedges : ∀ i ∈ frameTrace fs, passive i = true ∨ isEdge i = true := fun i hi =>
    (mem_frameTrace hpassive hi).imp_right fun ⟨b, hb⟩ => hb ▸ isEdge_edgeOf b
  obtain ⟨t, ht, htinv, hparams, hheld⟩ := execAll_held (o := .keep0) (frameTrace fs) hinv hedges
    fun h => absurd h (edge01_notMem_frameTrace hpassive)
  refine ⟨t, ht, htinv, hparams, ?_⟩
  rw [hheld, frameTrace_edgeBits hpassive, State.held, hempty, List.take_zero, List.nil_append]

/-- After the trace of a frame READY is 1 exactly when the quiet period has passed since its last bit. -/
theorem execAll_frameTrace_ready {fs : List (Bool × List Instr)} {b : Bool} {is : List Instr} (hinv : s.Inv)
    (hempty : s.len = 0) (hpassive : ∀ f ∈ fs ++ [(b, is)], ∀ i ∈ f.2, passive i = true)
    (h : execAll (frameTrace (fs ++ [(b, is)])) s = .next t) : t.ready = true ↔ s.params.tTicks ≤ ticksIn is := by
  obtain ⟨hfs, hlast⟩ := List.forall_mem_append.1 hpassive
  obtain ⟨u, hu, huinv, huparams, -⟩ := execAll_frameTrace hinv hempty hfs
  obtain ⟨w, hw, hready, -⟩ := frameIsReadyExactlyAfterTheQuietPeriod u _ (edgeOf b) is huinv (isEdge_edgeOf b)
    (exec_edgeOf b u) (hlast _ List.mem_cons_self)
  have hsplit : frameTrace (fs ++ [(b, is)]) = frameTrace fs ++ edgeOf b :: is := by simp [frameTrace]
  rw [hsplit, execAll_append _ _ hu, execAll_cons _ (exec_edgeOf b u), hw] at h
  cases h
  rw [hready, huparams]

/-- The bus of delivered bits: the first cells of the buffer, then zeros (R65, R89). -/
theorem deliveredBits_eq_take {d : Nat} (hinv : s.Inv) (hd : d ≤ s.params.n) :
    deliveredBits d s = s.buf.take d ++ List.replicate (s.params.n - d) false := by
  have hbuf := hinv.buf_length
  apply List.ext_getElem
  · simp [hbuf, hd]
  · intro j hj _
    rw [deliveredBits_length] at hj
    by_cases hjd : j < d
    · simp [deliveredBits, State.bufRead, hjd, hbuf, hj]
    · simp [deliveredBits, List.getElem_append, hjd]

end

/-- Settles O52: the bits held, as many as `LEN` says. -/
theorem bufferHoldsTheFirstBitsDelivered : Obligations.BufferHoldsTheFirstBitsDelivered := by
  intro o is s bits hinv hpolicy his hbits
  obtain ⟨t, ht, htinv, -, hheld⟩ := execAll_held is hinv his (fun _ => hpolicy)
  rw [← hbits] at hheld
  refine ⟨t, ht, ?_, hheld⟩
  rw [← held_length htinv, hheld, List.length_take, List.length_append, held_length hinv, Nat.min_comm]

/-- Settles O54: no bit, or a last one whose quiet period has not passed, leaves nothing pending. -/
theorem readBeforeTheQuietPeriodFindsNothing : Obligations.ReadBeforeTheQuietPeriodFindsNothing := by
  intro s fs m hinv hempty hpassive hyoung
  obtain ⟨t, ht, htinv, hparams, -⟩ := execAll_frameTrace hinv hempty hpassive
  have hpending : t.pending = 0 := by
    obtain rfl | ⟨init, ⟨b, is⟩, rfl⟩ := List.eq_nil_or_concat' fs
    · cases ht; exact pending_of_empty s hempty
    · have hlast : ticksIn is < s.params.tTicks := hyoung (b, is) (by simp)
      rw [← ready_eq_false_iff, ← Bool.not_eq_true, execAll_frameTrace_ready hinv hempty hpassive ht]
      exact Nat.not_le.mpr hlast
  refine ⟨t, ht, ?_⟩
  rw [exec_read_empty m hpending, ← hparams]
  rfl

/-- Settles O53: the quiet period after the last bit makes the frame pending, the first READ delivers all it holds, and
leaves nothing for the second. -/
theorem frameIsReadExactlyOnce : Obligations.FrameIsReadExactlyOnce := by
  intro s fs m m' hinv hempty hne hfits hm hpassive _ hquiet
  obtain ⟨t, ht, htinv, hparams, hheld⟩ := execAll_frameTrace hinv hempty hpassive
  rw [List.take_of_length_le (by rwa [List.length_map])] at hheld
  have hlen : t.len = fs.length := by rw [← held_length htinv, hheld, List.length_map]
  have hpending : 0 < t.pending := by
    obtain rfl | ⟨init, ⟨b, is⟩, rfl⟩ := List.eq_nil_or_concat' fs
    · exact absurd rfl hne
    · have hready := (execAll_frameTrace_ready hinv hempty hpassive ht).2 (hquiet (b, is) (by simp))
      exact (pending_pos_iff t).2 ((ready_iff t).1 hready)
  have hbits : deliveredBits (min t.len (maxBits m)) t =
      fs.map Prod.fst ++ List.replicate (s.params.n - fs.length) false := by
    have hmin : min t.len (maxBits m) = t.len := Nat.min_eq_left (hlen.trans_le hm)
    rw [hmin, deliveredBits_eq_take htinv htinv.len_le, ← State.held, hheld, hparams, hlen]
  refine ⟨t, _, _, ht, exec_read_pending m hpending, exec_read_empty m' (pending_of_empty _ rfl), ?_, ?_, rfl⟩
  · rw [← hbits, ← hlen]; rfl
  · rw [← hparams]; rfl

end Sys2Proof.Machine
end

section
/-! PROOFS. The fields of a frame in closed form (R95, R96, R97), the wires DECODE reads (R58), and the frame a READ
delivered (R101). -/

namespace Sys2Proof.Machine

/-- The bits of a frame at indices lo to hi - 1, read as a number with the first of them most significant. -/
def windowValue (lo hi : Nat) (bits : FrameBits) : Nat :=
  ∑ i ∈ Finset.Ico lo hi, (if bits.getD i false then 1 else 0) * 2 ^ (hi - 1 - i)

/-- A window is its first part, shifted by the length of the second, and the second. -/
theorem windowValue_split {lo mid hi : Nat} (bits : FrameBits) (h1 : lo ≤ mid) (h2 : mid ≤ hi) :
    windowValue lo hi bits = windowValue lo mid bits * 2 ^ (hi - mid) + windowValue mid hi bits := by
  rw [windowValue, ← Finset.sum_Ico_consecutive _ h1 h2, windowValue, Finset.sum_mul]
  congr 1
  refine Finset.sum_congr rfl fun i hi' => ?_
  have hmem := Finset.mem_Ico.1 hi'
  have hexp : hi - 1 - i = (mid - 1 - i) + (hi - mid) := by omega
  rw [hexp, pow_add, mul_assoc]

/-- The window of one index is its bit. -/
theorem windowValue_singleton (i : Nat) (bits : FrameBits) :
    windowValue i (i + 1) bits = if bits.getD i false then 1 else 0 := by
  simp [windowValue]

/-- A window of no index is 0. -/
theorem windowValue_of_le {lo hi : Nat} (bits : FrameBits) (h : hi ≤ lo) : windowValue lo hi bits = 0 := by
  rw [windowValue, Finset.Ico_eq_empty_of_le h, Finset.sum_empty]

/-- The window from index 0 on, as a sum over a range. -/
theorem windowValue_zero (d : Nat) (bits : FrameBits) :
    windowValue 0 d bits = ∑ i ∈ Finset.range d, (if bits.getD i false then 1 else 0) * 2 ^ (d - 1 - i) := by
  rw [windowValue, Nat.Ico_zero_eq_range]

/-- A window's value is the frame's bits below its end. -/
theorem windowValue_congr {lo hi : Nat} {bits bits' : FrameBits}
    (h : ∀ i, i < hi → bits.getD i false = bits'.getD i false) : windowValue lo hi bits = windowValue lo hi bits' :=
  Finset.sum_congr rfl fun i hi' => by rw [h i (Finset.mem_Ico.1 hi').2]

/-- A window of the frame is the same in a longer frame. -/
theorem windowValue_append {lo hi : Nat} {bits : FrameBits} (more : FrameBits) (h : hi ≤ bits.length) :
    windowValue lo hi (bits ++ more) = windowValue lo hi bits :=
  windowValue_congr fun i hi' => by rw [List.getD_append _ _ _ _ (hi'.trans_le h)]

/-- Shifting in the bit that follows a window is the window with that bit. -/
theorem shiftIn_windowValue {lo : Nat} {bits : FrameBits} (b : Bool) (h : lo ≤ bits.length) :
    shiftIn (windowValue lo bits.length bits) b = windowValue lo (bits.length + 1) (bits ++ [b]) := by
  have hbit : (bits ++ [b]).getD bits.length false = b := by simp
  rw [windowValue_split _ h (Nat.le_succ _), windowValue_singleton, windowValue_append _ le_rfl, hbit, shiftIn_eq,
    Nat.succ_sub (le_refl _), Nat.sub_self, pow_one, Nat.mul_comm]

/-- A field that takes the bits at indices lo to hi alone is that window of the frame read so far; one more bit keeps
this. -/
theorem shiftWindow_eq {lo hi x : Nat} {bits : FrameBits} (b : Bool)
    (h : x = windowValue lo (min (hi + 1) bits.length) bits) :
    (if lo ≤ bits.length ∧ bits.length ≤ hi then shiftIn x b else x) =
      windowValue lo (min (hi + 1) (bits ++ [b]).length) (bits ++ [b]) := by
  rw [h, List.length_append, List.length_singleton]
  split
  next hin =>
    have hnow : min (hi + 1) bits.length = bits.length := by omega
    have hnext : min (hi + 1) (bits.length + 1) = bits.length + 1 := by omega
    rw [hnow, hnext, shiftIn_windowValue b hin.1]
  next hout =>
    obtain hshort | hlong := Nat.lt_or_ge bits.length lo
    · rw [windowValue_of_le _ (by omega), windowValue_of_le _ (by omega)]
    · have hsame : min (hi + 1) (bits.length + 1) = min (hi + 1) bits.length := by omega
      rw [hsame, windowValue_append _ (Nat.min_le_right _ _)]

/-- raw is the whole frame (R95). -/
theorem extract_raw_eq (bits : FrameBits) : (extract bits).raw = windowValue 0 bits.length bits := by
  induction bits using List.reverseRecOn with
  | nil => rfl
  | append_singleton bits b ih =>
    rw [extract_append, List.length_append, List.length_singleton, ← shiftIn_windowValue b (Nat.zero_le _), ← ih]
    rfl

/-- Facility is the window from index 1 to 8, as far as the frame goes (R96). -/
theorem extract_fac_eq (bits : FrameBits) : (extract bits).fac = windowValue 1 (min 9 bits.length) bits := by
  induction bits using List.reverseRecOn with
  | nil => rfl
  | append_singleton bits b ih =>
    rw [extract_append]
    exact shiftWindow_eq b ih

/-- Card is the window from index 9 to 24, as far as the frame goes (R97). -/
theorem extract_card_eq (bits : FrameBits) : (extract bits).card = windowValue 9 (min 25 bits.length) bits := by
  induction bits using List.reverseRecOn with
  | nil => rfl
  | append_singleton bits b ih =>
    rw [extract_append]
    exact shiftWindow_eq b ih

/-- A window in the form of R96 and R97: 0 for a frame that does not reach it, else a sum up to the last index. -/
theorem windowValue_eq_Icc (lo hi : Nat) (bits : FrameBits) :
    windowValue lo (min (hi + 1) bits.length) bits =
      if bits.length ≤ lo then 0
      else ∑ i ∈ Finset.Icc lo (min hi (bits.length - 1)),
        (if bits.getD i false then 1 else 0) * 2 ^ (min hi (bits.length - 1) - i) := by
  split
  next hshort => exact windowValue_of_le _ ((Nat.min_le_right _ _).trans hshort)
  next hlong =>
    have hlast : min (hi + 1) bits.length = min hi (bits.length - 1) + 1 := by omega
    rw [windowValue, hlast, Nat.add_sub_cancel]
    rfl

/-- The frame operand's bits are the wires below the count (R58). -/
theorem frameOperand_getD {d j : Nat} (fin : FrameBits) (h : j < d) :
    (frameOperand d fin).getD j false = fin.getD j false := by
  simp [frameOperand, h]

/-- Buses that agree below the count carry the same frame. -/
theorem frameOperand_congr {d : Nat} {fin fin' : FrameBits} (h : ∀ j, j < d → fin.getD j false = fin'.getD j false) :
    frameOperand d fin = frameOperand d fin' :=
  List.map_congr_left fun j hj => h j (List.mem_range.1 hj)

/-- A delivered wire is its cell of the buffer (R89). -/
theorem deliveredBits_getD {d j : Nat} {s : State} (hj : j < d) (hd : d ≤ s.params.n) :
    (deliveredBits d s).getD j false = s.buf.getD j false := by
  simp [deliveredBits, State.bufRead, hj, hj.trans_le hd]

/-- Settles O22: raw is the window of all indices. -/
theorem rawIsTheFrameReadMsbFirst : Obligations.RawIsTheFrameReadMsbFirst := by
  intro bits
  refine ⟨?_, extract_raw_lt bits⟩
  rw [extract_raw_eq, windowValue_zero]

/-- Settles O23: facility is the window from 1 to 8, and has 8 bits. -/
theorem facilityIsBitsOneToEight : Obligations.FacilityIsBitsOneToEight := fun bits =>
  ⟨(extract_fac_eq bits).trans (windowValue_eq_Icc 1 8 bits), Nat.le_of_lt_succ (extract_fac_fits bits)⟩

/-- Settles O24: card is the window from 9 to 24, and has 16 bits. -/
theorem cardIsBitsNineToTwentyFour : Obligations.CardIsBitsNineToTwentyFour := fun bits =>
  ⟨(extract_card_eq bits).trans (windowValue_eq_Icc 9 24 bits), Nat.le_of_lt_succ (extract_card_fits bits)⟩

/-- Settles O25: the window of all 26 indices is split at 1, 9 and 25. -/
theorem twentySixBitFrameIsParityFacilityCardParity : Obligations.TwentySixBitFrameIsParityFacilityCardParity := by
  intro bits hlength
  have hfac : (extract bits).fac = windowValue 1 9 bits := by rw [extract_fac_eq, hlength]; rfl
  have hcard : (extract bits).card = windowValue 9 25 bits := by rw [extract_card_eq, hlength]; rfl
  have h25 := windowValue_split (lo := 0) (mid := 25) (hi := 26) bits (by decide) (by decide)
  have h9 := windowValue_split (lo := 0) (mid := 9) (hi := 25) bits (by decide) (by decide)
  have h1 := windowValue_split (lo := 0) (mid := 1) (hi := 9) bits (by decide) (by decide)
  rw [windowValue_singleton] at h25 h1
  rw [extract_raw_eq, hlength, hfac, hcard, h25, h9, h1]
  ring

/-- Settles O26: DECODE reads its bus through the frame operand alone. -/
theorem decodeIgnoresWiresBeyondItsCount : Obligations.DecodeIgnoresWiresBeyondItsCount := by
  intro s d fin fin' h
  have hframe : frameOperand (deliveredCount d) fin = frameOperand (deliveredCount d) fin' := frameOperand_congr h
  simp only [exec, execDecode, decodeResponse, hframe]

/-- Settles O18: the term is no legal word's, since a decoded instruction is well formed. -/
theorem decodeOverCapacityAnswersIllegal : Obligations.DecodeOverCapacityAnswersIllegal := by
  refine fun s d fin hover => ⟨exec_decode_of_gt fin hover, fun t h => ?_⟩
  have hwf := wellFormed_of_decodeCommand h
  simp only [Instr.wellFormed, Bool.and_eq_true, decide_eq_true_eq] at hwf
  obtain ⟨hle, -⟩ := hwf
  exact absurd hover (Nat.not_lt.mpr hle)

/-- Settles O27: the delivered wires below d are the first d cells, and DECODE reads those wires alone. -/
theorem decodingAReadFrameReadsTheDeliveredBits : Obligations.DecodingAReadFrameReadsTheDeliveredBits := by
  intro s m d hinv hpending hd
  have hdn : d.toNat ≤ s.params.n := by have := hinv.len_le; omega
  have hread := exec_read_pending m hpending
  have hcount : (frameResponse (maxBits m) s).count.toNat = s.len := toNat_ofNat_len hinv
  have hbits : (frameResponse (maxBits m) s).bits = deliveredBits d.toNat s := by rw [hd]; rfl
  have hframe : (frameResponse (maxBits m) s).frame m = (s.len, s.buf.take d.toNat) := by
    have hmin : min s.len (maxBits m) = d.toNat := hd.symm
    have hcells : (s.buf.take d.toNat).length = d.toNat := by
      rw [List.length_take, hinv.buf_length, Nat.min_eq_left hdn]
    rw [Response.frame, hcount, hbits, hmin, deliveredBits_eq_take hinv hdn, List.take_left' hcells]
  refine ⟨_, _, _, _, hread, rfl, hcount, hframe, exec_decode_of_le _ hdn, rfl, rfl, ?_⟩
  rw [← windowValue_zero]
  refine (extract_raw_eq _).trans ?_
  rw [frameOperand_length, hbits]
  exact windowValue_congr fun j hj => (frameOperand_getD _ hj).trans (deliveredBits_getD hj hdn)

end Sys2Proof.Machine
end

section
/-! PROOFS. What power-on leaves in `BUF`, `LAST` and `NOW` is never observable (R35): states that differ only in what
no response and no READY level shows keep doing so. -/

namespace Sys2Proof.Machine

/-- Two states that differ at most in cells no bit is held in and in when their clocks started: they hold the same bits,
and while they hold any the same quiet time has passed. -/
structure Alike (s t : State) : Prop where
  params : s.params = t.params
  len : s.len = t.len
  held : s.held = t.held
  elapsed : 0 < t.len → s.elapsed = t.elapsed
  rsp : s.rsp = t.rsp
  inputs : s.inputs = t.inputs
  due : s.due = t.due
  freeIx : s.freeIx = t.freeIx

section
variable {s t : State}

/-- Alike states have the same frame pending. -/
theorem Alike.pending_eq (h : Alike s t) : s.pending = t.pending := by
  unfold State.pending
  rw [h.len, h.params]
  split
  next => rfl
  next hheld => rw [h.elapsed (Nat.pos_of_ne_zero hheld)]

/-- Alike states show the same READY level. -/
theorem Alike.ready_eq (h : Alike s t) : s.ready = t.ready := by
  rw [State.ready, h.pending_eq, State.ready]

/-- They stay alike with the same response. -/
theorem Alike.setRsp (h : Alike s t) (r : Option Response) : Alike (s.setRsp r) (t.setRsp r) :=
  ⟨h.params, h.len, h.held, h.elapsed, rfl, h.inputs, h.due, h.freeIx⟩

/-- They stay alike with a response of zeros. -/
theorem Alike.respondZero (h : Alike s t) (st : Status) :
    Alike (s.respond (Response.zero s.params.n st)) (t.respond (Response.zero t.params.n st)) := by
  rw [h.params]
  exact h.setRsp _

/-- They stay alike with the same samples to come. -/
theorem Alike.setInputs (h : Alike s t) (xs : List Instant) : Alike (s.setInputs xs) (t.setInputs xs) :=
  ⟨h.params, h.len, h.held, h.elapsed, h.rsp, rfl, h.due, h.freeIx⟩

/-- They stay alike with the same transitions due. -/
theorem Alike.setDue (h : Alike s t) (ds : List Transition) : Alike (s.setDue ds) (t.setDue ds) :=
  ⟨h.params, h.len, h.held, h.elapsed, h.rsp, h.inputs, rfl, h.freeIx⟩

/-- They stay alike with the same free values to come. -/
theorem Alike.setFreeIx (h : Alike s t) (k : Nat) : Alike (s.setFreeIx k) (t.setFreeIx k) :=
  ⟨h.params, h.len, h.held, h.elapsed, h.rsp, h.inputs, h.due, rfl⟩

/-- They stay alike when both are emptied, whatever else they hold. -/
theorem Alike.clearLen (h : Alike s t) : Alike s.clearLen t.clearLen :=
  ⟨h.params, rfl, rfl, fun hpos => absurd hpos (Nat.lt_irrefl 0), h.rsp, h.inputs, h.due, h.freeIx⟩

/-- They stay alike when a TICK passes in both. -/
theorem Alike.advanceNow (h : Alike s t) (hs : s.Inv) (ht : t.Inv) :
    Alike (s.setNow (s.now + 1)) (t.setNow (t.now + 1)) := by
  refine ⟨h.params, h.len, h.held, fun hpos => ?_, h.rsp, h.inputs, h.due, h.freeIx⟩
  have hsle : s.last ≤ s.now := hs.last_le (hpos.trans_eq h.len.symm)
  have hquiet : s.now - s.last = t.now - t.last := h.elapsed hpos
  exact (Nat.sub_add_comm hsle).trans (by rw [hquiet]; exact (Nat.sub_add_comm (ht.last_le hpos)).symm)

/-- They stay alike when the same bit arrives in both. -/
theorem Alike.appendBit (h : Alike s t) (hs : s.Inv) (ht : t.Inv) (b : Bool) :
    Alike (s.appendBit b) (t.appendBit b) where
  params := by simpa using h.params
  len := by rw [appendBit_len, appendBit_len, h.len, h.params]
  held := by rw [appendBit_held b hs, appendBit_held b ht, h.held, h.params]
  elapsed := fun _ => by simp [State.elapsed]
  rsp := by simpa using h.rsp
  inputs := by simpa using h.inputs
  due := by simpa using h.due
  freeIx := by simpa using h.freeIx

/-- They stay alike when both lines have the same outcome. -/
theorem Alike.appendBoth (h : Alike s t) (hs : s.Inv) (ht : t.Inv) (o : BothEdgeOutcome) :
    Alike (s.appendBoth o) (t.appendBoth o) := by
  have htwo : ∀ b c, Alike ((s.appendBit b).appendBit c) ((t.appendBit b).appendBit c) := fun b c =>
    (h.appendBit hs ht b).appendBit (appendBit_inv b s hs) (appendBit_inv b t ht) c
  cases o with
  | order01 => exact htwo false true
  | order10 => exact htwo true false
  | keep0 => exact h.appendBit hs ht false
  | keep1 => exact h.appendBit hs ht true

/-- The policy selects the same outcome in both, under ANY too, as the same free value is taken. -/
theorem Alike.appendByPolicy (h : Alike s t) (hs : s.Inv) (ht : t.Inv) : Alike s.appendByPolicy t.appendByPolicy := by
  unfold State.appendByPolicy
  rw [h.params, h.freeIx]
  cases t.params.bothEdge with
  | order01 => exact h.appendBoth hs ht .order01
  | order10 => exact h.appendBoth hs ht .order10
  | keep0 => exact h.appendBoth hs ht .keep0
  | keep1 => exact h.appendBoth hs ht .keep1
  | any => exact (h.appendBoth hs ht _).setFreeIx _

/-- Power-on reset takes the same free values in both. -/
theorem Alike.powerOnReset (h : Alike s t) : Alike s.powerOnReset t.powerOnReset := by
  refine ⟨h.params, rfl, rfl, fun hpos => absurd hpos (Nat.lt_irrefl 0), rfl, h.inputs, h.due, ?_⟩
  exact congrArg (· + 2) h.freeIx

/-- Delivered bits are bits held. -/
theorem deliveredBits_eq_held {d : Nat} (hinv : s.Inv) (hd : d ≤ s.len) :
    deliveredBits d s = s.held.take d ++ List.replicate (s.params.n - d) false := by
  rw [deliveredBits_eq_take hinv (hd.trans hinv.len_le), State.held, List.take_take, Nat.min_eq_left hd]

/-- A draining READ answers the same in both. -/
theorem Alike.frameResponse_eq (h : Alike s t) (hs : s.Inv) (ht : t.Inv) (m : Nat) :
    frameResponse m s = frameResponse m t := by
  rw [frameResponse, frameResponse, deliveredBits_eq_held hs (Nat.min_le_left _ _),
    deliveredBits_eq_held ht (Nat.min_le_left _ _), h.held, h.len, h.params]

/-- Every instruction keeps them alike. -/
theorem exec_alike (h : Alike s t) (hs : s.Inv) (ht : t.Inv) (i : Instr) :
    ∃ s' t', exec i s = .next s' ∧ exec i t = .next t' ∧ Alike s' t' := by
  cases i with
  | nop => exact ⟨s.respondOk, t.respondOk, rfl, rfl, h.respondZero .ok⟩
  | pend =>
    have hpend : pendResponse s = pendResponse t := by rw [pendResponse, pendResponse, h.pending_eq, h.params]
    exact ⟨s.respond (pendResponse s), t.respond (pendResponse t), rfl, rfl, hpend ▸ h.setRsp _⟩
  | read m =>
    obtain hp | hp := Nat.eq_zero_or_pos s.pending
    · exact ⟨_, _, exec_read_empty m hp, exec_read_empty m (h.pending_eq ▸ hp), h.respondZero .ok⟩
    · exact ⟨_, _, exec_read_pending m hp, exec_read_pending m (h.pending_eq ▸ hp),
        h.frameResponse_eq hs ht _ ▸ h.clearLen.setRsp _⟩
  | reset => exact ⟨s.clearLen.respondOk, t.clearLen.respondOk, rfl, rfl, h.clearLen.respondZero .ok⟩
  | decode d fin =>
    obtain hd | hd := Nat.lt_or_ge s.params.n d.toNat
    · exact ⟨_, _, exec_decode_of_gt fin hd, exec_decode_of_gt fin (h.params ▸ hd), h.respondZero .illegal⟩
    · exact ⟨_, _, exec_decode_of_le fin hd, exec_decode_of_le fin (h.params ▸ hd), h.params ▸ h.setRsp _⟩
  | edge0 => exact ⟨_, _, exec_edgeOf false s, exec_edgeOf false t, (h.appendBit hs ht false).setRsp none⟩
  | edge1 => exact ⟨_, _, exec_edgeOf true s, exec_edgeOf true t, (h.appendBit hs ht true).setRsp none⟩
  | edge01 => exact ⟨_, _, exec_edge01 s, exec_edge01 t, (h.appendByPolicy hs ht).setRsp none⟩
  | tick => exact ⟨_, _, exec_tick s, exec_tick t, (h.advanceNow hs ht).setRsp none⟩

/-- Every transition keeps them alike. -/
theorem perform_alike (h : Alike s t) (hs : s.Inv) (ht : t.Inv) (x : Transition) :
    ∃ s' t', perform x s = .next s' ∧ perform x t = .next t' ∧ Alike s' t' := by
  cases x with
  | instr i => exact exec_alike h hs ht i
  | illegal why => exact ⟨s.illegalCommand, t.illegalCommand, rfl, rfl, h.respondZero .illegal⟩
  | powerOn => exact ⟨s.powerOnReset, t.powerOnReset, rfl, rfl, h.powerOnReset⟩

/-- The same transition is taken in both, and they stay alike. -/
theorem takeDue_alike (h : Alike s t) (ts : List Transition) :
    (State.takeDue ts s).2 = (State.takeDue ts t).2 ∧ Alike (State.takeDue ts s).1 (State.takeDue ts t).1 := by
  match ts with
  | [] => exact ⟨rfl, h.setDue []⟩
  | [x] => exact ⟨rfl, h.setDue []⟩
  | x :: y :: ts =>
    have hchoice : s.orderChoice (ts.length + 2) = t.orderChoice (ts.length + 2) := by
      rw [State.orderChoice, State.orderChoice, h.freeIx]
    rw [State.takeDue, State.takeDue, hchoice, h.freeIx]
    exact ⟨rfl, (h.setDue _).setFreeIx _⟩

/-- The same next transition is taken in both, and they stay alike. -/
theorem nextTransition_alike (h : Alike s t) :
    s.nextTransition.2 = t.nextTransition.2 ∧ Alike s.nextTransition.1 t.nextTransition.1 := by
  cases hdue : t.due with
  | nil =>
    cases hinputs : t.inputs with
    | nil =>
      rw [nextTransition_of_idle (h.due.trans hdue) (h.inputs.trans hinputs), nextTransition_of_idle hdue hinputs]
      exact ⟨rfl, h⟩
    | cons x rest =>
      rw [nextTransition_of_inputs (h.due.trans hdue) (h.inputs.trans hinputs), nextTransition_of_inputs hdue hinputs,
        h.params]
      exact takeDue_alike (h.setInputs rest) _
  | cons x ts =>
    rw [nextTransition_of_due (h.due.trans hdue) (by simp), nextTransition_of_due hdue (by simp)]
    exact takeDue_alike h _

/-- A step keeps them alike. -/
theorem step_alike (h : Alike s t) (hs : s.Inv) (ht : t.Inv) :
    ∃ s' t', step s = .next s' ∧ step t = .next t' ∧ Alike s' t' := by
  obtain ⟨hsame, hnext⟩ := nextTransition_alike h
  rw [step_of_legal hs.legal, step_of_legal ht.legal]
  unfold performNext
  rw [hsame]
  cases t.nextTransition.2 with
  | none => exact ⟨_, _, rfl, rfl, hnext.setRsp none⟩
  | some x => exact perform_alike hnext (nextTransition_inv hs) (nextTransition_inv ht) x

/-- Alike states show the same over any number of steps. -/
theorem observe_eq_of_alike (k : Nat) (h : Alike s t) (hs : s.Inv) (ht : t.Inv) : observe k s = observe k t := by
  induction k generalizing s t with
  | zero => rfl
  | succ k ih =>
    obtain ⟨s', t', hstep, hstep', h'⟩ := step_alike h hs ht
    rw [observe, observe, hstep, hstep']
    dsimp only
    rw [h'.rsp, h'.ready_eq, ih h' (step_inv hs hstep) (step_inv ht hstep')]

/-- States just after power-on reset are alike, whatever `BUF`, `LAST` and `NOW` hold. -/
theorem alike_of_poweredOn (hs : s.PoweredOn) (ht : t.PoweredOn) (hparams : s.params = t.params)
    (hinputs : s.inputs = t.inputs) (hfree : s.freeIx = t.freeIx) : Alike s t := by
  obtain ⟨-, -, hslen, hsrsp, hsdue⟩ := hs
  obtain ⟨-, -, htlen, htrsp, htdue⟩ := ht
  refine ⟨hparams, hslen.trans htlen.symm, ?_, fun hpos => by omega, hsrsp.trans htrsp.symm, hinputs,
    hsdue.trans htdue.symm, hfree⟩
  rw [State.held, State.held, hslen, htlen, List.take_zero, List.take_zero]

end

/-- Settles O56: two such states are alike and have the invariant. -/
theorem powerOnValuesAreNeverObservable : Obligations.PowerOnValuesAreNeverObservable :=
  fun k _ _ hs ht hparams hinputs hfree =>
    observe_eq_of_alike k (alike_of_poweredOn hs ht hparams hinputs hfree) (inv_of_poweredOn hs) (inv_of_poweredOn ht)

end Sys2Proof.Machine
end

section
/-! PROOFS. What each statement of the assembler presents on the ports (R69). -/

namespace Sys2Proof.Machine

section
variable {p : Params} {m d : Nat} {bits : FrameBits}

/-- The count of a statement fits the operand field of its word. -/
theorem toNat_ofNat_of_le (h : m ≤ 255) : (BitVec.ofNat 8 m).toNat = m := by
  rw [BitVec.toNat_ofNat, Nat.mod_eq_of_lt (by omega)]

/-- `read m` with m at most 255 presents READ m (R69). -/
theorem assemble_read_of_le (h : m ≤ 255) : assemble p (.read m) = some [encode p.n (.read (BitVec.ofNat 8 m))] :=
  if_pos h

/-- `decode d` with as many bits presents DECODE d with the bits on its first wires and zeros above (R69). -/
theorem assemble_decode_of_le (hd : d ≤ p.n) (hbits : bits.length = d) :
    assemble p (.decode d bits) =
      some [encode p.n (.decode (BitVec.ofNat 8 d) (bits ++ List.replicate (p.n - d) false))] :=
  if_pos ⟨hd, hbits⟩

/-- The padded bus has N wires, so DECODE with it is well formed. -/
theorem decode_padded_wellFormed (hcount : (BitVec.ofNat 8 d).toNat = d) (hd : d ≤ p.n) (hbits : bits.length = d) :
    (Instr.decode (BitVec.ofNat 8 d) (bits ++ List.replicate (p.n - d) false)).wellFormed p.n = true := by
  simp only [Instr.wellFormed, hcount, List.length_append, List.length_replicate, Bool.and_eq_true, decide_eq_true_eq]
  omega

/-- Above the given bits the padded bus carries zeros. -/
theorem padded_getD {k j : Nat} (hj : bits.length ≤ j) : (bits ++ List.replicate k false).getD j false = false := by
  rw [List.getD_append_right _ _ _ _ hj]
  simp

end

/-- Settles O58: each accepted statement is the encoding of its instruction, which decodes back. -/
theorem statementsPresentTheirTransitions : Obligations.StatementsPresentTheirTransitions := by
  intro p m d bits hlegal
  have hn : p.n ≤ 255 := n_le_of_legal hlegal
  refine ⟨fun st i hst => ?plain, fun hm => ?read, fun hm => ?readOver, fun hd hbits => ?decode, fun h => ?decodeOver⟩
  case plain =>
    simp only [List.mem_cons, Prod.mk.injEq, List.not_mem_nil, or_false] at hst
    obtain ⟨rfl, rfl⟩ | ⟨rfl, rfl⟩ | ⟨rfl, rfl⟩ | ⟨rfl, rfl⟩ | ⟨rfl, rfl⟩ | ⟨rfl, rfl⟩ | ⟨rfl, rfl⟩ := hst <;> rfl
  case read =>
    exact ⟨_, assemble_read_of_le hm, decodeInstant_encode rfl, toNat_ofNat_of_le hm⟩
  case readOver => exact if_neg (Nat.not_le.mpr hm)
  case decode =>
    have hcount : (BitVec.ofNat 8 d).toNat = d := toNat_ofNat_of_le (hd.trans hn)
    exact ⟨_, _, assemble_decode_of_le hd hbits, decodeInstant_encode (decode_padded_wellFormed hcount hd hbits),
      hcount, List.take_left' hbits, fun j hj => padded_getD (hbits.trans_le hj)⟩
  case decodeOver => exact if_neg fun ⟨hd, hbits⟩ => h.elim (Nat.not_lt.mpr hd) (absurd hbits)

end Sys2Proof.Machine
end
